-- ==== Sys2Proof/Word.lean ====
section
/-! DEFINITION. The two widths of the block: 8-bit registers and buffer bytes, and the 32-bit `DELTA` and `SECS`
(00_scope R6, R7). The bit-field and BCD helpers are in Machine/Operands.lean. -/

namespace Sys2Proof

/-- A byte; bit 0 is the least significant (R7). -/
abbrev Byte := BitVec 8

/-- The width of `DELTA` and `SECS` (R26, R27). -/
abbrev Word32 := BitVec 32

end Sys2Proof
end

