-- ==== Sys2Proof/Syntax.lean ====
section
/-! DEFINITION. The command set SBC-1: one constructor per row of spec/opcode_table.json (30_encoding R74). -/

namespace Sys2Proof

/-- A command of the block. A format B row carries its one-bit immediate `imm1`, used as it stands (R72, R73); a format Z
row carries nothing (R71), since every other operand is the content of a fixed register or buffer. -/
inductive Instr where
  /-- decimal to BCD (R90) -/
  | d2b
  /-- BCD to decimal (R91) -/
  | b2d
  /-- BCD to two ASCII digits (R92) -/
  | b2a
  /-- parse a time (R105) -/
  | ptime
  /-- parse a date and time (R106) -/
  | pdt
  /-- set the display mode; `w` = 1 wants 12-hour mode (R120) -/
  | setmode (w : Bool)
  /-- day of week (R130) -/
  | dow
  /-- seconds since midnight (R140) -/
  | tosec
  /-- advance the time of day (R142) -/
  | adv
  /-- encode an alarm setting (R153) -/
  | almenc
  /-- decode an alarm channel's registers; `c` = 0 is channel 1, `c` = 1 channel 2 (R155) -/
  | almdec (c : Bool)
  /-- render the time (R166) -/
  | fmtt
  /-- render the date (R167) -/
  | fmtd
  /-- render the day name (R168) -/
  | fmtn
  deriving DecidableEq, Repr

end Sys2Proof
end

