-- ==== Sys2Proof/Decode.lean ====
section
/-! DEFINITION. Decoding a command byte and encoding a command, both from the opcode map of 30_encoding R74. A byte the map
does not list is rejected by name (R76). -/

namespace Sys2Proof

/-- Why a byte is no command. -/
inductive DecodeError where
  /-- The byte is none of the sixteen codes of R74 (R76). Raised by `decode`; the block answers it by setting ILL. -/
  | illegalCommand (c : Byte)
  deriving DecidableEq, Repr

/-- One row of the map: a byte `c` selects it when `c &&& mask = pattern` (R74). -/
structure OpcodeRow where
  pattern : Byte
  mask : Byte
  /-- the command of the row, from its immediate `imm1` (R73); a format Z row ignores it -/
  build : Bool → Instr

/-- The opcode map, in the order of R74. -/
def opcodeMap : List OpcodeRow :=
  [ ⟨0x01, 0xFF, fun _ => .d2b⟩,
    ⟨0x02, 0xFF, fun _ => .b2d⟩,
    ⟨0x03, 0xFF, fun _ => .b2a⟩,
    ⟨0x10, 0xFF, fun _ => .ptime⟩,
    ⟨0x11, 0xFF, fun _ => .pdt⟩,
    ⟨0x20, 0xFE, .setmode⟩,
    ⟨0x30, 0xFF, fun _ => .dow⟩,
    ⟨0x40, 0xFF, fun _ => .tosec⟩,
    ⟨0x41, 0xFF, fun _ => .adv⟩,
    ⟨0x50, 0xFF, fun _ => .almenc⟩,
    ⟨0x52, 0xFE, .almdec⟩,
    ⟨0x60, 0xFF, fun _ => .fmtt⟩,
    ⟨0x61, 0xFF, fun _ => .fmtd⟩,
    ⟨0x62, 0xFF, fun _ => .fmtn⟩ ]

/-- The selection test of R74. -/
def rowMatches (c : Byte) (row : OpcodeRow) : Bool := c &&& row.mask == row.pattern

/-- The immediate `imm1 = CMD[0]` of format B (R73). -/
def imm1 (c : Byte) : Bool := c.getLsbD 0

/-- The command a byte encodes, a function of the byte alone (R75). -/
def decode (c : Byte) : Except DecodeError Instr :=
  match opcodeMap.find? (rowMatches c) with
  | some row => .ok (row.build (imm1 c))
  | none => .error (.illegalCommand c)

/-- A command byte from its two fields, `fam` in bits 7:4 and `fn` in bits 3:0 (R70, R71). -/
def formatZ (fam fn : BitVec 4) : Byte := fam ++ fn

/-- A format B byte: `fam`, `fn[3:1]`, then the immediate in bit 0 (R72). -/
def formatB (fam : BitVec 4) (fnHi : BitVec 3) (imm : Bool) : Byte := fam ++ fnHi ++ BitVec.ofBool imm

/-- The byte the host writes to `CMD` for a command (R70 to R74). -/
def encode : Instr → Byte
  | .d2b => formatZ 0 1
  | .b2d => formatZ 0 2
  | .b2a => formatZ 0 3
  | .ptime => formatZ 1 0
  | .pdt => formatZ 1 1
  | .setmode w => formatB 2 0 w
  | .dow => formatZ 3 0
  | .tosec => formatZ 4 0
  | .adv => formatZ 4 1
  | .almenc => formatZ 5 0
  | .almdec c => formatB 5 1 c
  | .fmtt => formatZ 6 0
  | .fmtd => formatZ 6 1
  | .fmtn => formatZ 6 2

/-- The first byte of an instruction given as the table numbers its bits, those above `nbits` being 0. A command is one
byte (R70), so this byte is the whole of it. -/
def tableByte (nbits w : Nat) : Byte := BitVec.ofNat 8 (w % 2 ^ nbits)

/-- What the decoder reads from the table's numbering of an instruction; `none` where it refuses. -/
def decodeTableWord (nbits w : Nat) : Option Instr := (decode (tableByte nbits w)).toOption

end Sys2Proof
end

