-- ==== Sys2Proof/Machine/Actions.lean ====
section
/-! DEFINITION. What the host can do to the block: its single accesses (20_memory R54, 70_reset_and_hazards R200), the
registers they reach (20_memory R51), and the action language host programs are written in (30_encoding R77, R78). The
meanings of all of these are in Machine/Ops.lean, Machine/HostPort.lean and Machine/HostProgram.lean. -/

namespace Sys2Proof.Machine

/-- One access by the host, or the reset input. The whole interface of the block (R50, R54, R200). -/
inductive HostAction where
  /-- `W offset value`: a one-byte write to the engine register space (R77) -/
  | write (offset value : Byte)
  /-- `R offset`: a one-byte read (R77) -/
  | read (offset : Byte)
  /-- the reset input is asserted and released (R200) -/
  | reset
  deriving DecidableEq, Repr

/-- A slot of the Time Record, in index order 0 to 6 (10_state R21). -/
inductive Slot where
  | seconds | minutes | hours | dayOfWeek | day | month | year
  deriving DecidableEq, Repr

/-- One byte-wide location of the engine register space that is not reserved (R51). The four bytes of `DELTA` and `SECS` are
numbered from the least significant (R53). -/
inductive Reg where
  | record (slot : Slot)
  | a0 | a1 | a2 | sel
  | res0 | res1
  | count | alen
  | delta (k : Fin 4)
  | secs (k : Fin 4)
  | alm (k : Fin 4)
  | status
  | cmd
  | ibuf (k : Fin 32)
  | tbuf (k : Fin 12)
  | nbuf (k : Fin 4)
  | dbuf (k : Fin 9)
  deriving DecidableEq, Repr

/-- A line of a host program: the actions of R77 and the pseudo-actions of R78. -/
inductive Action where
  /-- `WR <loc>, <value>` -/
  | wr (loc : Reg) (value : Byte)
  /-- `RD <loc>` -/
  | rd (loc : Reg)
  /-- a mnemonic, with its immediate where it has one -/
  | command (i : Instr)
  | mode12
  | mode24
  | almdec1
  | almdec2
  /-- `LDREC b0, …, b6` -/
  | ldrec (b0 b1 b2 b3 b4 b5 b6 : Byte)
  /-- `LDTIME b0, b1, b2` -/
  | ldtime (b0 b1 b2 : Byte)
  /-- `LDSTR "s"`; the length must be at most 31 (WellFormed.lean) -/
  | ldstr (s : List Byte)
  /-- `WR32 DELTA, v` -/
  | wr32Delta (v : Word32)
  /-- `RD32 SECS` -/
  | rd32Secs
  /-- `LDALM a0, a1, a2, a3` -/
  | ldalm (a0 a1 a2 a3 : Byte)
  deriving DecidableEq, Repr

end Sys2Proof.Machine
end

