-- ==== Sys2Proof/Machine/State.lean ====
section
/-! DEFINITION. The state of the block: the complete list of 10_state R20, and beside it the model's own two fields for the
host's side (log entries 1 and 2); the reasons a step can stop, of which the spec gives none (60_exceptions R180); the state
after reset (10_state R40). -/

namespace Sys2Proof.Machine

/-- The Time Record `REC[0..6]`, slot by slot in index order (R21). -/
structure TimeRecord where
  /-- `REC[0]` -/
  seconds : Byte
  /-- `REC[1]` -/
  minutes : Byte
  /-- `REC[2]`, with the mode flag in bit 6 and the PM bit in bit 5 (R22) -/
  hours : Byte
  /-- `REC[3]`, 1 = Sunday … 7 = Saturday -/
  dayOfWeek : Byte
  /-- `REC[4]` -/
  day : Byte
  /-- `REC[5]` -/
  month : Byte
  /-- `REC[6]` -/
  year : Byte
  deriving DecidableEq, Repr

/-- The machine. The first eighteen fields are R20's list; `pending` and `replies` are the model's own. -/
structure State where
  /-- `REC[0..6]` (R21) -/
  record : TimeRecord
  /-- `A0` (R24) -/
  a0 : Byte
  /-- `A1` (R24) -/
  a1 : Byte
  /-- `A2` (R24) -/
  a2 : Byte
  /-- `RES0` (R25) -/
  res0 : Byte
  /-- `RES1` (R25) -/
  res1 : Byte
  /-- `DELTA` (R26) -/
  delta : Word32
  /-- `SECS` (R27) -/
  secs : Word32
  /-- `SEL` (R28) -/
  sel : Byte
  /-- `ALM[0..3]` (R29) -/
  alm : Vector Byte 4
  /-- `ALEN` (R30) -/
  alen : Byte
  /-- `COUNT` (R31) -/
  count : Byte
  /-- `STATUS` (R32); its fields are read and written in Machine/Flags.lean -/
  status : Byte
  /-- `CMD` (R33) -/
  cmd : Byte
  /-- `IBUF[0..31]` (R34) -/
  ibuf : Vector Byte 32
  /-- `TBUF[0..11]` (R35) -/
  tbuf : Vector Byte 12
  /-- `DBUF[0..8]` (R36) -/
  dbuf : Vector Byte 9
  /-- `NBUF[0..3]` (R37) -/
  nbuf : Vector Byte 4
  /-- DESIGN CHOICE (log 1): the host's accesses not yet served, oldest first. -/
  pending : List HostAction
  /-- DESIGN CHOICE (log 2): the bytes the host has read, oldest first. -/
  replies : List Byte
  deriving DecidableEq, Repr

/-- Why the machine can stop with a fault: it cannot. "The block raises no exception, takes no trap and has no fault state"
(R180), so the type has no constructor. -/
inductive Fault where
  deriving DecidableEq, Repr

/-- Why an instruction can be refused. -/
inductive Refusal where
  /-- The instruction has no meaning in the model yet. Raised by an arm of exec alone; safe. No arm raises it now. -/
  | notModelled (mnemonic : String)
  deriving DecidableEq, Repr

/-- The record at reset (R40). -/
def TimeRecord.zero : TimeRecord := ⟨0, 0, 0, 0, 0, 0, 0⟩

/-- The machine right after reset: every register and buffer holds zero (R40, R201); the host has issued nothing (log 1). -/
def State.reset : State where
  record := TimeRecord.zero
  a0 := 0
  a1 := 0
  a2 := 0
  res0 := 0
  res1 := 0
  delta := 0
  secs := 0
  sel := 0
  alm := Vector.replicate 4 0
  alen := 0
  count := 0
  status := 0
  cmd := 0
  ibuf := Vector.replicate 32 0
  tbuf := Vector.replicate 12 0
  dbuf := Vector.replicate 9 0
  nbuf := Vector.replicate 4 0
  pending := []
  replies := []

end Sys2Proof.Machine
end

