-- ==== Sys2Proof/Machine/Flags.lean ====
section
/-! DEFINITION. The fields of `STATUS` (10_state R32): reading one, and writing one with the others kept (00_scope R9). -/

namespace Sys2Proof.Machine

/-- Bit `k` of a byte written, the other bits kept. -/
def writeBit (b : Byte) (k : Nat) (v : Bool) : Byte :=
  if v then b ||| (1#8 <<< k) else b &&& ~~~(1#8 <<< k)

/-- `STATUS.OK`, bit 0. -/
def State.ok (s : State) : Bool := s.status.getLsbD 0

/-- `STATUS.WRAP`, bit 1. -/
def State.wrap (s : State) : Bool := s.status.getLsbD 1

/-- `STATUS.ILL`, bit 2. -/
def State.ill (s : State) : Bool := s.status.getLsbD 2

/-- `STATUS.OK <- v`, written by PTIME and PDT only. -/
def statusWithOk (st : Byte) (v : Bool) : Byte := writeBit st 0 v

/-- `STATUS.WRAP <- v`, written by ADV only. -/
def statusWithWrap (st : Byte) (v : Bool) : Byte := writeBit st 1 v

/-- `STATUS.ILL <- 1`; no rule but reset clears it (R32, R200). -/
def statusWithIll (st : Byte) : Byte := writeBit st 2 true

end Sys2Proof.Machine
end

