-- ==== Sys2Proof/Config.lean ====
section
/-! DEFINITION. The implementation parameters of 00_scope R6: the fixed ones with their values, the OPEN ones as opaque
constants, so that no proof can rest on a value of them. -/

namespace Sys2Proof.Config

/-- `CENTURY`, in the day-of-week formula (R6, R131). -/
def century : Nat := 20

/-- `SECONDS_PER_DAY` (R6). -/
def secondsPerDay : Nat := 86400

/-- The digits a parser group may have: with `THIRD_DIGIT_POLICY` = reject the scan stops at one more (R6, R103). -/
def maxGroupDigits : Nat := 2

/-- `PART_BIT`, the participation bit of an alarm register byte (R6, R151). -/
def partBit : Nat := 7

/-- `DYDT_BIT`, the discriminator of the day/date byte (R6, R152). -/
def dydtBit : Nat := 6

/-- `HOST_BASE` (R6, OPEN): where the 256-byte register map sits in the host's address space. -/
opaque hostBase : Nat

/-- `A1_BASE` (R6, OPEN): the device address of alarm channel 1's first register. -/
opaque alarm1Base : Byte

/-- `A2_BASE` (R6, OPEN): the device address of alarm channel 2's first register. -/
opaque alarm2Base : Byte

/-- `CTRL_ADDR` (R6, OPEN): the device's control register. -/
opaque ctrlAddr : Byte

/-- `STAT_ADDR` (R6, OPEN): the device's status register. -/
opaque statAddr : Byte

/-- The control register's enable bit of channel 1 (R6, R187, OPEN). -/
opaque enable1Bit : Fin 8

/-- The control register's enable bit of channel 2 (R6, R187, OPEN). -/
opaque enable2Bit : Fin 8

/-- The control register's interrupt-mode bit (R6, R187, OPEN). -/
opaque interruptModeBit : Fin 8

/-- The status register's fired flag of channel 1 (R6, R187, OPEN). -/
opaque fired1Bit : Fin 8

/-- The status register's fired flag of channel 2 (R6, R187, OPEN). -/
opaque fired2Bit : Fin 8

end Sys2Proof.Config
end

