-- ==== Sys2Proof/Machine/Operands.lean ====
section
/-! DEFINITION. Operand forms: nibbles and the BCD helpers (00_scope R10), ASCII codes (R11), the hours byte (10_state R22,
44_time_arithmetic R141), the validity predicates (10_state R23), the bytes of a 32-bit register (20_memory R53,
30_encoding R73), the selector and the alarm register byte (45_alarm R150 to R152, R158). -/

namespace Sys2Proof.Machine

/-- `b[7:4]`. -/
def hiNibble (b : Byte) : Nat := (b.extractLsb' 4 4).toNat

/-- `b[3:0]`. -/
def loNibble (b : Byte) : Nat := (b.extractLsb' 0 4).toNat

/-- `Dec(b)`, total (R10). -/
def dec (b : Byte) : Nat := 10 * hiNibble b + loNibble b

/-- `Bcd(n)`, total: the tens digit is reduced to four bits (R10). -/
def bcd (n : Nat) : Byte := (BitVec.ofNat 8 (n / 10 % 16) <<< 4) ||| BitVec.ofNat 8 (n % 10)

/-- `IsBcd(b)` (R10). -/
def isBcd (b : Byte) : Bool := hiNibble b ≤ 9 && loNibble b ≤ 9

/-- The first character of `Asc(b)`, the tens (R10). -/
def ascHi (b : Byte) : Byte := BitVec.ofNat 8 (0x30 + hiNibble b)

/-- The second character of `Asc(b)`, the units (R10). -/
def ascLo (b : Byte) : Byte := BitVec.ofNat 8 (0x30 + loNibble b)

/-- A digit is a byte in 0x30 to 0x39 (R11). -/
def isDigit (c : Byte) : Bool := 0x30 ≤ c.toNat && c.toNat ≤ 0x39

/-- A delimiter is every byte that is neither a digit nor NUL (R100). -/
def isDelimiter (c : Byte) : Bool := !isDigit c && c != 0x00

/-- `'A'` (R11). -/
def charA : Byte := 0x41

/-- `'P'` (R11). -/
def charP : Byte := 0x50

/-- `'M'` (R11). -/
def charM : Byte := 0x4D

/-- `':'` (R11). -/
def charColon : Byte := 0x3A

/-- `'/'` (R11). -/
def charSlash : Byte := 0x2F

/-- Space (R11). -/
def charSpace : Byte := 0x20

/-- `Is12(b)`, the mode flag (R22). -/
def is12 (b : Byte) : Bool := b.getLsbD 6

/-- `IsPm(b)`, meaningful only with the mode flag set (R22). -/
def isPm (b : Byte) : Bool := b.getLsbD 5

/-- `HourBits(b)`: bits 4:0 in 12-hour mode, bits 5:0 in 24-hour mode, zero-extended (R22). -/
def hourBits (b : Byte) : Byte :=
  if is12 b then (b.extractLsb' 0 5).setWidth 8 else (b.extractLsb' 0 6).setWidth 8

/-- `Hour(b)` (R22). -/
def hour (b : Byte) : Nat := dec (hourBits b)

/-- `TimeOfDayHour(b)` (R141): "12-hour hour 12 maps to 0 before the PM offset is added". -/
def timeOfDayHour (b : Byte) : Nat :=
  if is12 b then
    let h := if hour b = 12 then 0 else hour b
    if isPm b then h + 12 else h
  else hour b

/-- The 12-hour byte of an hour: mode flag set, bit 7 clear, PM from 12 on, and 0 rendered as 12 (R120, R141). -/
def encodeHour12 (h : Nat) : Byte :=
  let h12 := if h % 12 = 0 then 12 else h % 12
  let pm : Byte := if h ≥ 12 then 1 else 0
  0x40 ||| (pm <<< 5) ||| bcd h12

/-- `EncodeHour(h, mode)` (R141). -/
def encodeHour (h : Nat) (mode : Bool) : Byte := if mode then encodeHour12 h else bcd h

/-- `ValidHourByte(b)` (R23). -/
def validHourByte (b : Byte) : Bool :=
  !b.getLsbD 7 && isBcd (hourBits b) && (if is12 b then 1 ≤ hour b && hour b ≤ 12 else hour b ≤ 23)

/-- `ValidTime(REC)` (R23). -/
def validTime (r : TimeRecord) : Bool :=
  isBcd r.seconds && dec r.seconds ≤ 59 && isBcd r.minutes && dec r.minutes ≤ 59 && validHourByte r.hours

/-- `ValidRecord(REC)` (R23). -/
def validRecord (r : TimeRecord) : Bool :=
  validTime r && 1 ≤ r.dayOfWeek.toNat && r.dayOfWeek.toNat ≤ 7 &&
  isBcd r.day && 1 ≤ dec r.day && dec r.day ≤ 31 && isBcd r.month && 1 ≤ dec r.month && dec r.month ≤ 12 && isBcd r.year

/-- The record's byte in a slot (R21). -/
def TimeRecord.get (r : TimeRecord) : Slot → Byte
  | .seconds => r.seconds
  | .minutes => r.minutes
  | .hours => r.hours
  | .dayOfWeek => r.dayOfWeek
  | .day => r.day
  | .month => r.month
  | .year => r.year

/-- The record with one slot written. -/
def TimeRecord.set (r : TimeRecord) (slot : Slot) (v : Byte) : TimeRecord :=
  match slot with
  | .seconds => { r with seconds := v }
  | .minutes => { r with minutes := v }
  | .hours => { r with hours := v }
  | .dayOfWeek => { r with dayOfWeek := v }
  | .day => { r with day := v }
  | .month => { r with month := v }
  | .year => { r with year := v }

/-- The record as the seven bytes of slots 0 to 6 (R52). -/
def TimeRecord.bytes (r : TimeRecord) : List Byte :=
  [r.seconds, r.minutes, r.hours, r.dayOfWeek, r.day, r.month, r.year]

/-- Byte `k` of a 32-bit register, byte 0 the least significant (R53). -/
def wordByte (w : Word32) (k : Fin 4) : Byte := w.extractLsb' (8 * k.val) 8

/-- `b0 | b1 << 8 | b2 << 16 | b3 << 24` (R73). -/
def wordOfBytes (b0 b1 b2 b3 : Byte) : Word32 := b3 ++ b2 ++ b1 ++ b0

/-- A 32-bit register with byte `k` written (R53, R58). -/
def setWordByte (w : Word32) (k : Fin 4) (v : Byte) : Word32 :=
  let at' := fun j : Fin 4 => if j = k then v else wordByte w j
  wordOfBytes (at' 0) (at' 1) (at' 2) (at' 3)

/-- Selector bit 7, `CH`: false is channel 1, true channel 2 (R150). -/
def selChannel2 (sel : Byte) : Bool := sel.getLsbD 7

/-- Selector bit 4, `DY`: true emits the day of week (R150). -/
def selDayOfWeek (sel : Byte) : Bool := sel.getLsbD 4

/-- Selector bit 3, `P_DATE` (R150). -/
def selDate (sel : Byte) : Bool := sel.getLsbD 3

/-- Selector bit 2, `P_HOUR` (R150). -/
def selHour (sel : Byte) : Bool := sel.getLsbD 2

/-- Selector bit 1, `P_MIN` (R150). -/
def selMin (sel : Byte) : Bool := sel.getLsbD 1

/-- Selector bit 0, `P_SEC` (R150). -/
def selSec (sel : Byte) : Bool := sel.getLsbD 0

/-- `Inject(b, p)`: bit 7 replaced by `p` (R151). -/
def inject (b : Byte) (p : Bool) : Byte :=
  (b &&& 0x7F) ||| (BitVec.ofBool p).setWidth 8 <<< Config.partBit

/-- `DayDate(REC, SEL)`: the discriminator, bit 6, is written in both forms (R152). -/
def dayDate (r : TimeRecord) (sel : Byte) : Byte :=
  if selDayOfWeek sel then inject r.dayOfWeek (selDate sel) ||| (1#8 <<< Config.dydtBit)
  else inject r.day (selDate sel) &&& ~~~(1#8 <<< Config.dydtBit)

/-- The participation bit of an alarm register byte (R158). -/
def alarmParticipates (a : Byte) : Bool := a.getLsbD Config.partBit

/-- The field of a seconds, minutes or hours alarm byte, `a[6:0]` (R158). -/
def alarmField (a : Byte) : Byte := (a.extractLsb' 0 7).setWidth 8

/-- The discriminator of a day/date alarm byte: true when it holds a day of week (R158). -/
def alarmIsDayOfWeek (a : Byte) : Bool := a.getLsbD Config.dydtBit

/-- The value of a day/date alarm byte, `a[5:0]` (R158). -/
def alarmDayDate (a : Byte) : Byte := (a.extractLsb' 0 6).setWidth 8

end Sys2Proof.Machine
end

