-- ==== Sys2Proof/Machine/Ops.lean ====
section
/-! DEFINITION. The named operations over the engine register space (20_memory R51): which register an offset names, reading
and writing a register's byte, what the host may write (10_state R41), the one shared effect of an illegal command
(30_encoding R76) and of the reset input (70_reset_and_hazards R200).

Taking an exception and returning from one have no operation here because the block has neither: it "raises no exception,
takes no trap and has no fault state" (60_exceptions R180), no state is saved and no mode changes (R190), and there is no
return (R191). `illegalCommand` is the one error report that is not a command's own result (R184, R185). -/

namespace Sys2Proof.Machine

/-- The record slot of index `n`, 0 to 6; callers give no other (R21). -/
def slotOfIndex : Nat → Slot
  | 0 => .seconds
  | 1 => .minutes
  | 2 => .hours
  | 3 => .dayOfWeek
  | 4 => .day
  | 5 => .month
  | _ => .year

/-- The index of a slot, which is also its offset in both address spaces (R21, R52). -/
def slotIndex : Slot → Nat
  | .seconds => 0
  | .minutes => 1
  | .hours => 2
  | .dayOfWeek => 3
  | .day => 4
  | .month => 5
  | .year => 6

/-- The map of R51, from offset to register; `none` is a reserved offset. -/
def regAt (offset : Byte) : Option Reg :=
  let n := offset.toNat
  if n ≤ 0x06 then some (.record (slotOfIndex n))
  else if n = 0x07 then none
  else if n = 0x08 then some .a0
  else if n = 0x09 then some .a1
  else if n = 0x0A then some .a2
  else if n = 0x0B then some .sel
  else if n = 0x0C then some .res0
  else if n = 0x0D then some .res1
  else if n = 0x0E then some .count
  else if n = 0x0F then some .alen
  else if n ≤ 0x13 then some (.delta (Fin.ofNat 4 (n - 0x10)))
  else if n ≤ 0x17 then some (.secs (Fin.ofNat 4 (n - 0x14)))
  else if n ≤ 0x1B then some (.alm (Fin.ofNat 4 (n - 0x18)))
  else if n = 0x1C then some .status
  else if n ≤ 0x1E then none
  else if n = 0x1F then some .cmd
  else if n ≤ 0x3F then some (.ibuf (Fin.ofNat 32 (n - 0x20)))
  else if n ≤ 0x4B then some (.tbuf (Fin.ofNat 12 (n - 0x40)))
  else if n ≤ 0x4F then some (.nbuf (Fin.ofNat 4 (n - 0x4C)))
  else if n ≤ 0x58 then some (.dbuf (Fin.ofNat 9 (n - 0x50)))
  else none

/-- The offset of a register, from the name column of R51. -/
def regOffset : Reg → Byte
  | .record slot => BitVec.ofNat 8 (slotIndex slot)
  | .a0 => 0x08
  | .a1 => 0x09
  | .a2 => 0x0A
  | .sel => 0x0B
  | .res0 => 0x0C
  | .res1 => 0x0D
  | .count => 0x0E
  | .alen => 0x0F
  | .delta k => BitVec.ofNat 8 (0x10 + k.val)
  | .secs k => BitVec.ofNat 8 (0x14 + k.val)
  | .alm k => BitVec.ofNat 8 (0x18 + k.val)
  | .status => 0x1C
  | .cmd => 0x1F
  | .ibuf k => BitVec.ofNat 8 (0x20 + k.val)
  | .tbuf k => BitVec.ofNat 8 (0x40 + k.val)
  | .nbuf k => BitVec.ofNat 8 (0x4C + k.val)
  | .dbuf k => BitVec.ofNat 8 (0x50 + k.val)

/-- The address of an offset in the host's own address space (R6, R51). -/
def hostAddress (offset : Byte) : Nat := Config.hostBase + offset.toNat

/-- Whether the host may write a register (R41): the result registers and output buffers are read only. -/
def hostWritable : Reg → Bool
  | .record _ | .a0 | .a1 | .a2 | .sel | .delta _ | .alm _ | .cmd | .ibuf _ => true
  | .res0 | .res1 | .count | .alen | .secs _ | .status | .tbuf _ | .nbuf _ | .dbuf _ => false

/-- The byte a register holds. -/
def State.get (s : State) : Reg → Byte
  | .record slot => s.record.get slot
  | .a0 => s.a0
  | .a1 => s.a1
  | .a2 => s.a2
  | .sel => s.sel
  | .res0 => s.res0
  | .res1 => s.res1
  | .count => s.count
  | .alen => s.alen
  | .delta k => wordByte s.delta k
  | .secs k => wordByte s.secs k
  | .alm k => s.alm.get k
  | .status => s.status
  | .cmd => s.cmd
  | .ibuf k => s.ibuf.get k
  | .tbuf k => s.tbuf.get k
  | .nbuf k => s.nbuf.get k
  | .dbuf k => s.dbuf.get k

/-- The state with one register's byte stored. -/
def State.set (s : State) (r : Reg) (v : Byte) : State :=
  match r with
  | .record slot => { s with record := s.record.set slot v }
  | .a0 => { s with a0 := v }
  | .a1 => { s with a1 := v }
  | .a2 => { s with a2 := v }
  | .sel => { s with sel := v }
  | .res0 => { s with res0 := v }
  | .res1 => { s with res1 := v }
  | .count => { s with count := v }
  | .alen => { s with alen := v }
  | .delta k => { s with delta := setWordByte s.delta k v }
  | .secs k => { s with secs := setWordByte s.secs k v }
  | .alm k => { s with alm := s.alm.set k v }
  | .status => { s with status := v }
  | .cmd => { s with cmd := v }
  | .ibuf k => { s with ibuf := s.ibuf.set k v }
  | .tbuf k => { s with tbuf := s.tbuf.set k v }
  | .nbuf k => { s with nbuf := s.nbuf.set k v }
  | .dbuf k => { s with dbuf := s.dbuf.set k v }

/-- What a read of an offset returns: the register's byte, or 0x00 at a reserved offset (R41, R56). -/
def State.peek (s : State) (offset : Byte) : Byte :=
  match regAt offset with
  | some r => s.get r
  | none => 0x00

/-- A host write to a register other than `CMD`: stored where the host may write, ignored where it may not (R41, R56). -/
def storeByHost (r : Reg) (v : Byte) (s : State) : State := if hostWritable r then s.set r v else s

/-- A host read: the byte is returned, and nothing else happens (R41, R57). -/
def readByHost (offset : Byte) (s : State) : State := { s with replies := s.replies ++ [s.peek offset] }

/-- The state with one access taken off the host's list (log 1). -/
def State.withPending (s : State) (rest : List HostAction) : State := { s with pending := rest }

/-- The state with a byte stored in `CMD` (R33). -/
def State.withCmd (s : State) (c : Byte) : State := { s with cmd := c }

/-- An illegal command sets `STATUS.ILL` and changes nothing else (R76); `CMD` has been stored before it. -/
def illegalCommand (s : State) : State := { s with status := statusWithIll s.status }

/-- The reset input: every register and buffer at its reset value (R200). The host's own two fields are not the block's. -/
def resetBlock (s : State) : State := { State.reset with pending := s.pending, replies := s.replies }

end Sys2Proof.Machine
end

