-- ==== Sys2Proof/Machine/AlarmCodec.lean ====
section
/-! DEFINITION. Family 5, the Alarm Codec: ALMENC and ALMDEC (45_alarm R153, R155). The presets of R154 are values of the
selector, not state. -/

namespace Sys2Proof.Machine

/-- The preset `ALARM1_HOUR_MIN_SEC_MATCH` (R154). -/
def presetHourMinSec : Byte := 0x07

/-- The preset "match every second" (R154). -/
def presetEverySecond : Byte := 0x00

/-- The preset "match seconds+minutes+hours+date", by day of month (R154). -/
def presetDateTime : Byte := 0x0F

/-- The same preset by day of week (R154). -/
def presetDayTime : Byte := 0x1F

/-- The image ALMENC leaves in `ALM[0..3]` (R153). -/
def alarmImage (r : TimeRecord) (sel : Byte) : Vector Byte 4 :=
  if selChannel2 sel then
    #v[inject r.minutes (selMin sel), inject r.hours (selHour sel), dayDate r sel, 0x00]
  else
    #v[inject r.seconds (selSec sel), inject r.minutes (selMin sel), inject r.hours (selHour sel), dayDate r sel]

/-- ALMENC: the alarm image and its length, 4 for channel 1 and 3 for channel 2 (R153). -/
def execAlmenc (s : State) : Host.Outcome State Fault Refusal :=
  .next { s with alm := alarmImage s.record s.sel, alen := if selChannel2 s.sel then 3 else 4 }

/-- ALMDEC c: the channel's time-of-day bytes copied whole into the record, participation bits included; the day/date byte is
not read (R155, R157). -/
def execAlmdec (c : Bool) (s : State) : Host.Outcome State Fault Refusal :=
  if c then
    .next { s with record := { s.record with minutes := s.alm[0], hours := s.alm[1] }, alen := 2 }
  else
    .next { s with record := { s.record with seconds := s.alm[0], minutes := s.alm[1], hours := s.alm[2] }, alen := 3 }

end Sys2Proof.Machine
end

