-- ==== Sys2Proof/Machine/BcdCodec.lean ====
section
/-! DEFINITION. Family 0, the BCD Codec: D2B, B2D, B2A (40_bcd_codec R90 to R92). None of them reads or writes the record, a
buffer or a flag (R94). -/

namespace Sys2Proof.Machine

/-- D2B: `RES0 <- Bcd(A0)` (R90). -/
def execD2b (s : State) : Host.Outcome State Fault Refusal := .next { s with res0 := bcd s.a0.toNat }

/-- B2D: `RES0 <- Dec(A0)`; at most 165, so nothing is dropped (R91). -/
def execB2d (s : State) : Host.Outcome State Fault Refusal := .next { s with res0 := BitVec.ofNat 8 (dec s.a0) }

/-- B2A: `(RES0, RES1) <- Asc(A0)` (R92). -/
def execB2a (s : State) : Host.Outcome State Fault Refusal :=
  .next { s with res0 := ascHi s.a0, res1 := ascLo s.a0 }

end Sys2Proof.Machine
end

