-- ==== Sys2Proof/Machine/Calendar.lean ====
section
/-! DEFINITION. Family 3, the Calendar Calculator: DOW (43_calendar R130, R131). -/

namespace Sys2Proof.Machine

/-- `DowF(month, day, year)`, the formula as written, with no January or February adjustment (R131, R133). -/
def dowF (month day year : Nat) : Nat :=
  (day + 13 * (month + 1) / 5 + year + year / 4 + Config.century / 4 + 5 * Config.century) % 7 + 1

/-- DOW: `RES0 <- DowF(A0, A1, A2)`, the operands plain binary numbers (R130). -/
def execDow (s : State) : Host.Outcome State Fault Refusal :=
  .next { s with res0 := BitVec.ofNat 8 (dowF s.a0.toNat s.a1.toNat s.a2.toNat) }

end Sys2Proof.Machine
end

