-- ==== Sys2Proof/Machine/Formatter.lean ====
section
/-! DEFINITION. Family 6, the Formatter: FMTT, FMTD and FMTN (46_formatter R165 to R168). Each writes the whole of its own
buffer and no other (R170). -/

namespace Sys2Proof.Machine

/-- The time string: the hour from its hour bits alone, and in 12-hour mode the suffix; the tail is cleared (R166). -/
def timeString (r : TimeRecord) : Vector Byte 12 :=
  let h := hourBits r.hours
  if is12 r.hours then
    #v[ascHi h, ascLo h, charColon, ascHi r.minutes, ascLo r.minutes, charColon, ascHi r.seconds, ascLo r.seconds,
       charSpace, if isPm r.hours then charP else charA, charM, 0x00]
  else
    #v[ascHi h, ascLo h, charColon, ascHi r.minutes, ascLo r.minutes, charColon, ascHi r.seconds, ascLo r.seconds,
       0x00, 0x00, 0x00, 0x00]

/-- The date string, month, day, year (R167). -/
def dateString (r : TimeRecord) : Vector Byte 9 :=
  #v[ascHi r.month, ascLo r.month, charSlash, ascHi r.day, ascLo r.day, charSlash, ascHi r.year, ascLo r.year, 0x00]

/-- The day-name table, a constant of the block; a field outside 1 to 7 has no row and gives `???` (R165, R168). -/
def dayName (dow : Byte) : Vector Byte 4 :=
  match dow.toNat with
  | 1 => #v[0x53, 0x75, 0x6E, 0x00]
  | 2 => #v[0x4D, 0x6F, 0x6E, 0x00]
  | 3 => #v[0x54, 0x75, 0x65, 0x00]
  | 4 => #v[0x57, 0x65, 0x64, 0x00]
  | 5 => #v[0x54, 0x68, 0x72, 0x00]
  | 6 => #v[0x46, 0x72, 0x69, 0x00]
  | 7 => #v[0x53, 0x61, 0x74, 0x00]
  | _ => #v[0x3F, 0x3F, 0x3F, 0x00]

/-- FMTT: the time string in `TBUF` (R166). -/
def execFmtt (s : State) : Host.Outcome State Fault Refusal := .next { s with tbuf := timeString s.record }

/-- FMTD: the date string in `DBUF` (R167). -/
def execFmtd (s : State) : Host.Outcome State Fault Refusal := .next { s with dbuf := dateString s.record }

/-- FMTN: the day name in `NBUF` (R168). -/
def execFmtn (s : State) : Host.Outcome State Fault Refusal := .next { s with nbuf := dayName s.record.dayOfWeek }

end Sys2Proof.Machine
end

