-- ==== Sys2Proof/Machine/ModeConverter.lean ====
section
/-! DEFINITION. Family 2, the Mode Converter: SETMODE (42_mode_converter R120). -/

namespace Sys2Proof.Machine

/-- The 24-hour hour of a 12-hour byte, by SETMODE's own wording: `hour mod 12`, plus 12 for PM (R120, R124). -/
def hourTo24 (b : Byte) : Nat := if isPm b then hour b % 12 + 12 else hour b % 12

/-- The hours byte SETMODE leaves: untouched, bit for bit, when the mode flag already matches (R120). -/
def convertMode (w : Bool) (b : Byte) : Byte :=
  if is12 b = w then b
  else if w then encodeHour12 (hour b)
  else bcd (hourTo24 b)

/-- SETMODE w: the hours byte converted in place (R120). -/
def execSetmode (w : Bool) (s : State) : Host.Outcome State Fault Refusal :=
  .next { s with record := { s.record with hours := convertMode w s.record.hours } }

end Sys2Proof.Machine
end

