-- ==== Sys2Proof/Machine/Parser.lean ====
section
/-! DEFINITION. Family 1, the Time Record Parser: the shared scanner (41_parser R101) and its two commands PTIME and PDT
(R105, R106). The scan index of R101 is the list of characters not yet read, and `map[cnt..N-1]` the list of slots not yet
filled, so `cnt = N` reads "no slot is left". -/

namespace Sys2Proof.Machine

/-- The scanner's local variables, which exist only during the command (R39, R101). -/
structure Scan where
  /-- the record, with the groups committed so far -/
  record : TimeRecord
  /-- the slots of the groups still wanted, in input order -/
  left : List Slot
  /-- `acc`, the nibble-packed accumulator -/
  acc : Byte
  /-- `nd`, the digits in the current group -/
  nd : Nat
  /-- `cnt`, the groups committed -/
  cnt : Nat
  deriving DecidableEq, Repr

/-- The scanner before the first character. -/
def startScan (r : TimeRecord) (map : List Slot) : Scan := ⟨r, map, 0x00, 0, 0⟩

/-- `acc <- ((acc << 4) | (c - 0x30))[7:0]; nd <- nd + 1` (R102). -/
def scanDigit (st : Scan) (c : Byte) : Scan :=
  { st with acc := (st.acc <<< 4) ||| (c - 0x30), nd := st.nd + 1 }

/-- `REC[map[cnt]] <- acc; cnt <- cnt + 1; acc <- 0; nd <- 0`. With no slot left nothing is written, a case the scan never
reaches (R101: `cnt < N` holds whenever a slot is written). -/
def scanCommit (st : Scan) : Scan :=
  match st.left with
  | [] => st
  | slot :: rest =>
    { record := st.record.set slot st.acc, left := rest, acc := 0x00, nd := 0, cnt := st.cnt + 1 }

/-- The AM/PM marker: on the delimiter that commits the last group, `'A'` sets bit 6 of `REC[2]` and `'P'` bits 6 and 5
(R109). -/
def scanMarker (st : Scan) (c : Byte) : Scan :=
  if st.left = [] ∧ (c = charA ∨ c = charP) then
    { st with record := { st.record with
        hours := st.record.hours ||| 0x40 ||| (if c = charP then 0x20 else 0x00) } }
  else st

/-- NUL, or the end of the buffer: a group with at least one digit is committed, an empty one is not (R107, R108). -/
def scanNul (st : Scan) : Scan := if st.nd > 0 then scanCommit st else st

/-- The loop of R101 over the characters not yet read. -/
def scanLoop : List Byte → Scan → Scan
  | [], st => scanNul st
  | c :: rest, st =>
    if isDigit c then
      if st.nd = Config.maxGroupDigits then st else scanLoop rest (scanDigit st c)
    else if c = 0x00 then scanNul st
    else
      let st' := scanMarker (scanCommit st) c
      if st'.left = [] then st' else scanLoop rest st'

/-- `Scan(N, map)` on the state's `IBUF` and record, `N` the length of `map` (R101). -/
def scan (s : State) (map : List Slot) : Scan := scanLoop s.ibuf.toList (startScan s.record map)

/-- `COUNT <- cnt` and `STATUS.OK <- cnt = N`, with the record the scan leaves (R101, R110). -/
def storeScan (s : State) (st : Scan) (r : TimeRecord) (n : Nat) : State :=
  { s with
    record := r
    count := BitVec.ofNat 8 st.cnt
    status := statusWithOk s.status (st.cnt == n) }

/-- The slots of PTIME's groups: hour, minute, second (R105). -/
def timeMap : List Slot := [.hours, .minutes, .seconds]

/-- The slots of PDT's groups: month, day, year, hour, minute, second (R106). -/
def dateTimeMap : List Slot := [.month, .day, .year, .hours, .minutes, .seconds]

/-- The record with its day of week computed from its decoded month, day and year (R106). -/
def withDayOfWeek (r : TimeRecord) : TimeRecord :=
  { r with dayOfWeek := bcd (dowF (dec r.month) (dec r.day) (dec r.year)) }

/-- PTIME: `Scan(3, [2, 1, 0])` (R105). -/
def execPtime (s : State) : Host.Outcome State Fault Refusal :=
  let st := scan s timeMap
  .next (storeScan s st st.record 3)

/-- PDT: `Scan(6, [5, 4, 6, 2, 1, 0])`, then the day of week, only when all six groups were committed (R106). -/
def execPdt (s : State) : Host.Outcome State Fault Refusal :=
  let st := scan s dateTimeMap
  .next (storeScan s st (if st.cnt = 6 then withDayOfWeek st.record else st.record) 6)

end Sys2Proof.Machine
end

