-- ==== Sys2Proof/Machine/TimeArithmetic.lean ====
section
/-! DEFINITION. Family 4, Time Arithmetic: TOSEC and ADV (44_time_arithmetic R140, R142). -/

namespace Sys2Proof.Machine

/-- `TimeOfDayHour(REC[2]) * 3600 + Dec(REC[1]) * 60 + Dec(REC[0])` (R140); at most 172065 on any record. -/
def secondsOf (r : TimeRecord) : Nat := timeOfDayHour r.hours * 3600 + dec r.minutes * 60 + dec r.seconds

/-- The record with its time of day re-encoded from `t` seconds since midnight in the given mode; the date is not touched
(R142). -/
def withTimeOfDay (r : TimeRecord) (mode : Bool) (t : Nat) : TimeRecord :=
  { r with
    seconds := bcd (t % 60)
    minutes := bcd (t / 60 % 60)
    hours := encodeHour (t / 3600) mode }

/-- TOSEC: `SECS` (R140). -/
def execTosec (s : State) : Host.Outcome State Fault Refusal :=
  .next { s with secs := BitVec.ofNat 32 (secondsOf s.record) }

/-- ADV: the sum is formed without wrap, its reaching a day is reported, and the remainder is re-encoded in the record's
mode (R142). -/
def execAdv (s : State) : Host.Outcome State Fault Refusal :=
  let t := secondsOf s.record + s.delta.toNat
  .next { s with
    record := withTimeOfDay s.record (is12 s.record.hours) (t % Config.secondsPerDay)
    status := statusWithWrap s.status (decide (t ≥ Config.secondsPerDay)) }

end Sys2Proof.Machine
end

