-- ==== Sys2Proof/Machine/Dispatch.lean ====
section
/-! DEFINITION. One arm per command, each one call of its meaning (30_encoding R74). -/

namespace Sys2Proof.Machine

/-- Executing a command, `CMD` already stored (10_state R33). -/
def exec (i : Instr) (s : State) : Host.Outcome State Fault Refusal :=
  match i with
  | .d2b => Sys2Proof.Machine.execD2b s
  | .b2d => Sys2Proof.Machine.execB2d s
  | .b2a => Sys2Proof.Machine.execB2a s
  | .ptime => Sys2Proof.Machine.execPtime s
  | .pdt => Sys2Proof.Machine.execPdt s
  | .setmode w => Sys2Proof.Machine.execSetmode w s
  | .dow => Sys2Proof.Machine.execDow s
  | .tosec => Sys2Proof.Machine.execTosec s
  | .adv => Sys2Proof.Machine.execAdv s
  | .almenc => Sys2Proof.Machine.execAlmenc s
  | .almdec c => Sys2Proof.Machine.execAlmdec c s
  | .fmtt => Sys2Proof.Machine.execFmtt s
  | .fmtd => Sys2Proof.Machine.execFmtd s
  | .fmtn => Sys2Proof.Machine.execFmtn s

end Sys2Proof.Machine
end

