-- ==== Sys2Proof/Machine/HostPort.lean ====
section
/-! DEFINITION. Serving one access of the host (10_state R33, R41; 20_memory R57, R60; 70_reset_and_hazards R200). -/

namespace Sys2Proof.Machine

/-- A host write of `c` to `CMD`: the byte is stored, then the command it encodes is executed to completion (R33), or, when
it encodes none, ILL is set (R76). -/
def issueCommand (c : Byte) (s : State) : Host.Outcome State Fault Refusal :=
  match decode c with
  | .ok i => exec i (s.withCmd c)
  | .error _ => .next (illegalCommand (s.withCmd c))

/-- A host write to any offset: the only one with a side effect is `CMD` (R57); a reserved offset ignores it (R56). -/
def serveWrite (offset v : Byte) (s : State) : Host.Outcome State Fault Refusal :=
  match regAt offset with
  | none => .next s
  | some .cmd => issueCommand v s
  | some r => .next (storeByHost r v s)

/-- One access served; the three agree with R54 (one byte), R57 (reads have no side effect) and R200 (reset). -/
def serve (a : HostAction) (s : State) : Host.Outcome State Fault Refusal :=
  match a with
  | .write offset v => serveWrite offset v s
  | .read offset => .next (readByHost offset s)
  | .reset => .next (resetBlock s)

/-- The next access of the host is served, in the order issued (R60). With none left the run has ended (R207) and the block is
idle between commands (R193): nothing changes. -/
def serveNext (s : State) : Host.Outcome State Fault Refusal :=
  match s.pending with
  | [] => .next s
  | a :: rest => serve a (s.withPending rest)

/-- The state in which the host's next access is a write of `c` to `CMD` (R33, R51). -/
def presentCommand (c : Byte) (s : State) : State :=
  s.withPending (.write (regOffset .cmd) c :: s.pending)

end Sys2Proof.Machine
end

