-- ==== Sys2Proof/Machine/Step.lean ====
section
/-! DEFINITION. The step of the machine: one access of the host, served (10_state R38, 20_memory R60). -/

namespace Sys2Proof.Machine

/-- One step: the host's next access is served. -/
def step (s : State) : Host.Outcome State Fault Refusal := serveNext s

/-- `s` with the instruction presented as the machine takes one: a host write of its byte to `CMD`, before whatever else the
host has still to issue (log 1). -/
def State.withFetchWord (s : State) (nbits w : Nat) : State := presentCommand (tableByte nbits w) s

end Sys2Proof.Machine
end

