-- ==== Sys2Proof/Machine/HostProgram.lean ====
section
/-! DEFINITION. The action language of host programs: each action and pseudo-action as the single accesses it stands for
(30_encoding R77, R78). -/

namespace Sys2Proof.Machine

/-- `WR <loc>, <value>` (R77). -/
def writeReg (r : Reg) (v : Byte) : HostAction := .write (regOffset r) v

/-- `RD <loc>` (R77). -/
def readReg (r : Reg) : HostAction := .read (regOffset r)

/-- A mnemonic: a host write of the command byte to `CMD` (R77). -/
def commandAccess (i : Instr) : HostAction := writeReg .cmd (encode i)

/-- `LDSTR`: the characters from `IBUF[start]` on, then a NUL (R78). -/
def loadString : Nat → List Byte → List HostAction
  | start, [] => [writeReg (.ibuf (Fin.ofNat 32 start)) 0x00]
  | start, c :: rest => writeReg (.ibuf (Fin.ofNat 32 start)) c :: loadString (start + 1) rest

/-- The expansion of an action (R77, R78). -/
def Action.expand : Action → List HostAction
  | .wr r v => [writeReg r v]
  | .rd r => [readReg r]
  | .command i => [commandAccess i]
  | .mode12 => [commandAccess (.setmode true)]
  | .mode24 => [commandAccess (.setmode false)]
  | .almdec1 => [commandAccess (.almdec false)]
  | .almdec2 => [commandAccess (.almdec true)]
  | .ldrec b0 b1 b2 b3 b4 b5 b6 =>
    [writeReg (.record .seconds) b0, writeReg (.record .minutes) b1, writeReg (.record .hours) b2,
     writeReg (.record .dayOfWeek) b3, writeReg (.record .day) b4, writeReg (.record .month) b5,
     writeReg (.record .year) b6]
  | .ldtime b0 b1 b2 =>
    [writeReg (.record .seconds) b0, writeReg (.record .minutes) b1, writeReg (.record .hours) b2]
  | .ldstr chars => loadString 0 chars
  | .wr32Delta v =>
    [writeReg (.delta 0) (wordByte v 0), writeReg (.delta 1) (wordByte v 1), writeReg (.delta 2) (wordByte v 2),
     writeReg (.delta 3) (wordByte v 3)]
  | .rd32Secs => [readReg (.secs 0), readReg (.secs 1), readReg (.secs 2), readReg (.secs 3)]
  | .ldalm x0 x1 x2 x3 =>
    [writeReg (.alm 0) x0, writeReg (.alm 1) x1, writeReg (.alm 2) x2, writeReg (.alm 3) x3]

/-- A program, "a finite list of host actions executed in order", as the accesses it makes (R38, R207). -/
def expandProgram (p : List Action) : List HostAction := p.flatMap Action.expand

/-- The machine with a program's accesses queued after those the host has already issued (R60). -/
def State.withProgram (s : State) (p : List Action) : State := { s with pending := s.pending ++ expandProgram p }

end Sys2Proof.Machine
end

