-- ==== Sys2Proof/Machine/Recipes.lean ====
section
/-! DEFINITION. Platform context (20_memory R62 to R64, 60_exceptions R183, R187, R188): how the host moves bytes between the
block and the external clock device. The device and the transport are out of scope (00_scope R4) and no step uses this file:
it gives the two transport primitives as data, and the host's recipes as functions of what the device returned. A device
address that a rule leaves OPEN is an opaque constant of Config (log 5). -/

namespace Sys2Proof.Machine

/-- `writeRegisterBlock(startAddress, bytes)` (R63). -/
structure BlockWrite where
  start : Byte
  bytes : List Byte
  deriving DecidableEq, Repr

/-- The one-byte writes a block write stands for: `bytes[k]` to address `startAddress + k`, in order (R54, R63). -/
def cellsFrom : Nat → List Byte → List Host.Cell
  | _, [] => []
  | address, b :: rest => (address, b) :: cellsFrom (address + 1) rest

/-- The cells of a block write (R63). -/
def BlockWrite.cells (w : BlockWrite) : List Host.Cell := cellsFrom w.start.toNat w.bytes

/-- A transfer's result: `none` when it was not acknowledged, which the host sees and must re-issue (R63, R183). -/
abbrev Transfer (α : Type) := Option α

/-- The record from the seven bytes of device registers 0 to 6 (R62, R64). -/
def recordOfBytes (b : Vector Byte 7) : TimeRecord := ⟨b[0], b[1], b[2], b[3], b[4], b[5], b[6]⟩

/-- Read the time: `REC[i] <- readRegister(i)`; after a failed transfer there is nothing valid to write (R64, R183). -/
def readTime (reply : Transfer (Vector Byte 7)) : Transfer (List Action) :=
  reply.map fun b => [.ldrec b[0] b[1] b[2] b[3] b[4] b[5] b[6]]

/-- Write the time: `writeRegisterBlock(0x00, REC[0..6])` (R64). -/
def writeTime (s : State) : BlockWrite := ⟨0x00, s.record.bytes⟩

/-- Set an alarm, the host's actions on the block: write `REC` and `SEL`, issue ALMENC (R64). -/
def setAlarm (r : TimeRecord) (sel : Byte) : List Action :=
  [.ldrec r.seconds r.minutes r.hours r.dayOfWeek r.day r.month r.year, .wr .sel sel, .command .almenc]

/-- The base address of an alarm channel (R62, R64). -/
def alarmBase (channel2 : Bool) : Byte := if channel2 then Config.alarm2Base else Config.alarm1Base

/-- Set an alarm, the device write that follows: `ALM[0..ALEN-1]` to the channel's base (R64, R153). -/
def writeAlarm (s : State) : BlockWrite := ⟨alarmBase (selChannel2 s.sel), s.alm.toList.take s.alen.toNat⟩

/-- Read an alarm: `ALM[k] <- readRegister(base + k)` for the channel's registers, then ALMDEC with the channel bit (R64). -/
def readAlarm1 (reply : Transfer (Vector Byte 4)) : Transfer (List Action) :=
  reply.map fun b => [.ldalm b[0] b[1] b[2] b[3], .almdec1]

/-- The same for channel 2, which has three registers (R62, R64). -/
def readAlarm2 (reply : Transfer (Vector Byte 3)) : Transfer (List Action) :=
  reply.map fun b => [.wr (.alm 0) b[0], .wr (.alm 1) b[1], .wr (.alm 2) b[2], .almdec2]

/-- The host's obligation on the device's control register: with either alarm enabled, the interrupt-mode bit is set too
(R188). -/
def controlWriteAllowed (v : Byte) : Bool :=
  !(v.getLsbD Config.enable1Bit || v.getLsbD Config.enable2Bit) || v.getLsbD Config.interruptModeBit

/-- A status byte with both "alarm fired" flags written zero, which clears them (R62, R187). -/
def clearFired (v : Byte) : Byte := v &&& ~~~(1#8 <<< Config.fired1Bit.val) &&& ~~~(1#8 <<< Config.fired2Bit.val)

end Sys2Proof.Machine
end

