-- ==== Sys2Proof/Safety.lean ====
section
/-! DEFINITION. What claims about the block are stated in: what a command may read and write (20_memory R66), the domain of
each command (00_scope R12), the registers' legal values (10_state R27, R30 to R32, R35 to R37), and the language the parser
accepts (41_parser R112). -/

namespace Sys2Proof.Machine

/-- The reserved offsets of R51. -/
def reservedOffset (o : Byte) : Prop :=
  o.toNat = 0x07 ∨ (0x1D ≤ o.toNat ∧ o.toNat ≤ 0x1E) ∨ 0x59 ≤ o.toNat

/-- The read-only offsets of R51. -/
def readOnlyOffset (o : Byte) : Prop :=
  (0x0C ≤ o.toNat ∧ o.toNat ≤ 0x0F) ∨ (0x14 ≤ o.toNat ∧ o.toNat ≤ 0x17) ∨ o.toNat = 0x1C ∨
  (0x40 ≤ o.toNat ∧ o.toNat ≤ 0x58)

/-- The sixteen command bytes, as the last sentence of R74 lists them. -/
def legalCodes : List Byte :=
  [0x01, 0x02, 0x03, 0x10, 0x11, 0x20, 0x21, 0x30, 0x40, 0x41, 0x50, 0x52, 0x53, 0x60, 0x61, 0x62]

/-- `t` holds in every register outside `written` what `s` holds, and the host's side is untouched. -/
def SameExcept (written : List Reg) (s t : State) : Prop :=
  (∀ r, r ∉ written → t.get r = s.get r) ∧ t.pending = s.pending ∧ t.replies = s.replies

/-- Bits 7:3 of `STATUS`, the reserved field (R32). -/
def statusReserved (s : State) : BitVec 5 := s.status.extractLsb' 3 5

/-- The slots `REC[0..2]`. -/
def timeRegs : List Reg := [.record .seconds, .record .minutes, .record .hours]

/-- The slots `REC[0..6]`. -/
def recordRegs : List Reg := timeRegs ++ [.record .dayOfWeek, .record .day, .record .month, .record .year]

/-- `ALM[0..3]`. -/
def almRegs : List Reg := [.alm 0, .alm 1, .alm 2, .alm 3]

/-- The locations a command writes (R66), `CMD` apart, which the host's write stores. -/
def writesOf : Instr → List Reg
  | .d2b | .b2d | .dow => [.res0]
  | .b2a => [.res0, .res1]
  | .ptime => timeRegs ++ [.count, .status]
  | .pdt => recordRegs ++ [.count, .status]
  | .setmode _ => [.record .hours]
  | .tosec => [.secs 0, .secs 1, .secs 2, .secs 3]
  | .adv => timeRegs ++ [.status]
  | .almenc => almRegs ++ [.alen]
  | .almdec false => timeRegs ++ [.alen]
  | .almdec true => [.record .minutes, .record .hours, .alen]
  | .fmtt => (List.finRange 12).map .tbuf
  | .fmtd => (List.finRange 9).map .dbuf
  | .fmtn => (List.finRange 4).map .nbuf

/-- The locations a command reads (R66). -/
def readsOf : Instr → List Reg
  | .d2b | .b2d | .b2a => [.a0]
  | .dow => [.a0, .a1, .a2]
  | .ptime | .pdt => (List.finRange 32).map .ibuf
  | .setmode _ => [.record .hours]
  | .tosec | .fmtt => timeRegs
  | .adv => timeRegs ++ [.delta 0, .delta 1, .delta 2, .delta 3]
  | .almenc => timeRegs ++ [.record .dayOfWeek, .record .day, .sel]
  | .almdec _ => [.alm 0, .alm 1, .alm 2]
  | .fmtd => [.record .day, .record .month, .record .year]
  | .fmtn => [.record .dayOfWeek]

/-- The locations a command writes whose old value can still be in them afterwards: the slots of groups a parse does not commit
(R110), the day of week of a failed PDT among them, and the bits of `STATUS` that are not the command's own (R9, R32). Every other
written location is overwritten whole. -/
def mayKeep : Instr → List Reg
  | .ptime => timeRegs ++ [.status]
  | .pdt => recordRegs ++ [.status]
  | .adv => [.status]
  | .d2b | .b2d | .b2a | .setmode _ | .dow | .tosec | .almenc | .almdec _ | .fmtt | .fmtd | .fmtn => []

/-- The byte a group commits: 0x00, `0x0d`, or the two digits' nibbles (R102). -/
def groupByte : List Byte → Byte
  | [] => 0x00
  | [d] => d - 0x30
  | d1 :: d2 :: _ => ((d1 - 0x30) <<< 4) ||| (d2 - 0x30)

/-- The bits the terminator of the last group adds to the hours byte (R109). -/
def markerBits : List Byte → Byte
  | [] => 0x00
  | c :: _ => if c = charA then 0x40 else if c = charP then 0x60 else 0x00

/-- The digits of a text up to `n` groups, one delimiter between two of them, and what follows the last; fewer groups where a
delimiter is missing (R100, R112). -/
def splitText : Nat → List Byte → List (List Byte) × List Byte
  | 0, text => ([], text)
  | n + 1, text =>
    let g := text.takeWhile isDigit
    let rest := text.dropWhile isDigit
    match rest with
    | [] => ([g], rest)
    | d :: later =>
      if n = 0 ∨ isDelimiter d = false then ([g], rest)
      else (g :: (splitText n later).1, (splitText n later).2)

/-- "groups of 1–2 decimal digits" (R105); an empty group, which the document does not speak of, is none (R104, log 9). -/
def groupSized (g : List Byte) : Bool := 1 ≤ g.length && g.length ≤ 2

/-- Hour, minute and second in range for the mode the terminator chooses: 1 to 12 after a marker, else 0 to 23 (R21, R105). -/
def timeGroupsInDomain (tail : List Byte) : List (List Byte) → Bool
  | [h, m, sec] =>
    (if markerBits tail = 0x00 then dec (groupByte h) ≤ 23 else 1 ≤ dec (groupByte h) && dec (groupByte h) ≤ 12) &&
    dec (groupByte m) ≤ 59 && dec (groupByte sec) ≤ 59
  | _ => false

/-- Month and day in range, with any two-digit year, before a time in range (R12, R106, R132). -/
def dateTimeGroupsInDomain (tail : List Byte) : List (List Byte) → Bool
  | month :: day :: _ :: time =>
    1 ≤ dec (groupByte month) && dec (groupByte month) ≤ 12 && 1 ≤ dec (groupByte day) && dec (groupByte day) ≤ 31 &&
    timeGroupsInDomain tail time
  | _ => false

/-- The domain of a command: the operands on which the source document defines its result (R12 and each command's rule). For the
two parses these are the texts of as many groups as the command wants, all in range: a failed parse leaves the output
"unspecified" (R110), and an out-of-range component is not checked (R105, R132). Outside its domain a command still has its
effect (R13); the block never evaluates this. -/
def inDomain : Instr → State → Bool
  | .d2b, s => s.a0.toNat ≤ 99
  | .b2d, s | .b2a, s => isBcd s.a0
  | .ptime, s =>
    let text := splitText 3 s.ibuf.toList
    text.1.all groupSized && timeGroupsInDomain text.2 text.1
  | .pdt, s =>
    let text := splitText 6 s.ibuf.toList
    text.1.all groupSized && dateTimeGroupsInDomain text.2 text.1
  | .almdec _, _ => true
  | .setmode _, s => validHourByte s.record.hours
  | .dow, s => 1 ≤ s.a0.toNat && s.a0.toNat ≤ 12 && 1 ≤ s.a1.toNat && s.a1.toNat ≤ 31 && s.a2.toNat ≤ 99
  | .tosec, s | .adv, s | .fmtt, s => validTime s.record
  | .almenc, s => validRecord s.record
  | .fmtd, s =>
    isBcd s.record.day && 1 ≤ dec s.record.day && dec s.record.day ≤ 31 &&
    isBcd s.record.month && 1 ≤ dec s.record.month && dec s.record.month ≤ 12 && isBcd s.record.year
  | .fmtn, s => 1 ≤ s.record.dayOfWeek.toNat && s.record.dayOfWeek.toNat ≤ 7

/-- The result registers hold a value some command can have left, or zero: STATUS's reserved bits read 0 (R32), `SECS` is at
most 172065 (R27), `ALEN` is 0, 2, 3 or 4 (R30), `COUNT` at most 6 and in step with OK (R31, R32), and each output buffer ends
in a NUL (R35 to R37). -/
structure RegistersLegal (s : State) : Prop where
  reserved : statusReserved s = 0
  secs : s.secs.toNat ≤ 172065
  alen : s.alen = 0 ∨ s.alen = 2 ∨ s.alen = 3 ∨ s.alen = 4
  count : s.count.toNat ≤ 6
  okCount : s.ok = true → s.count = 3 ∨ s.count = 6
  countOk : s.count = 6 → s.ok = true
  tbufEnd : s.tbuf[11] = 0
  dbufEnd : s.dbuf[8] = 0
  nbufEnd : s.nbuf[3] = 0

/-- A parser group: "zero, one or two digits" (R112). -/
def IsGroup (g : List Byte) : Prop := g.length ≤ 2 ∧ ∀ c ∈ g, isDigit c = true

/-- What may follow the last group: a delimiter, or, after a group with a digit, a NUL or the end of the buffer (R112). Six groups
and their delimiters are at most 18 characters, so in a buffer of 32 the last case does not arise. -/
def Terminated (g tail : List Byte) : Prop :=
  (∃ d rest, tail = d :: rest ∧ isDelimiter d = true) ∨ (g ≠ [] ∧ (tail = [] ∨ ∃ rest, tail = 0x00 :: rest))

/-- Groups each followed by its delimiter, as characters. -/
def joinGroups (body : List (List Byte × Byte)) : List Byte := body.flatMap fun p => p.1 ++ [p.2]

/-- Groups each followed by one delimiter. -/
def IsBody (body : List (List Byte × Byte)) : Prop := ∀ p ∈ body, IsGroup p.1 ∧ isDelimiter p.2 = true

/-- The accepted language of R112 for `n` groups: `g1 d1 g2 d2 ... gN t`, whatever follows `t`. -/
def Accepted (n : Nat) (text : List Byte) : Prop :=
  ∃ body g tail, text = joinGroups body ++ g ++ tail ∧ body.length + 1 = n ∧ IsBody body ∧ IsGroup g ∧ Terminated g tail

/-- What a failed parse leaves (R110): `COUNT` groups committed, each in its slot; OK clear; every other slot as before; nothing
outside the record, `COUNT` and OK written. `groups` are the groups committed, in input order, and `map` the command's slots. -/
def FailedParse (map : List Slot) (groups : List (List Byte)) (s t : State) : Prop :=
  t.count.toNat = groups.length ∧ t.ok = false ∧ t.wrap = s.wrap ∧ t.ill = s.ill ∧ statusReserved t = statusReserved s ∧
  (∀ (k : Nat) (slot : Slot) (g : List Byte), map[k]? = some slot → groups[k]? = some g →
    t.record.get slot = groupByte g) ∧
  (∀ slot, slot ∉ map.take groups.length → t.record.get slot = s.record.get slot) ∧
  SameExcept (recordRegs ++ [.count, .status]) s t

/-- The groups committed when a NUL follows `g`: an empty last group is not one of them (R107). -/
def groupsAtEnd (body : List (List Byte × Byte)) (g : List Byte) : List (List Byte) :=
  body.map Prod.fst ++ (if g = [] then [] else [g])

end Sys2Proof.Machine
end

