-- ==== Sys2Proof/WellFormed.lean ====
section
/-! DEFINITION. Well-formed terms. A command cannot be ill-formed: `Instr` carries nothing but the one-bit immediate of
format B, and the type admits both of its values and no other (30_encoding R72, R73). A host action's register is a `Reg`,
whose indices are bounded by their types (20_memory R51). What is left to check is the one bound the action language states
in words (30_encoding R78): the string of an LDSTR. -/

namespace Sys2Proof.Machine

/-- R78: "`len(s)` must be at most 31". -/
def Action.wellFormed : Action → Bool
  | .ldstr s => s.length ≤ 31
  | .wr _ _ | .rd _ | .command _ | .mode12 | .mode24 | .almdec1 | .almdec2 => true
  | .ldrec _ _ _ _ _ _ _ | .ldtime _ _ _ | .wr32Delta _ | .rd32Secs | .ldalm _ _ _ _ => true

/-- A host program is a finite list of actions (R38, R207), each of them well-formed. -/
def programWellFormed (p : List Action) : Bool := p.all Action.wellFormed

end Sys2Proof.Machine
end

