-- ==== Sys2Proof/Certificates/Slice0/Obligations.lean ====
section
/-! DEFINITION. The statements for the provers. Each docstring names the rule of spec/ the statement formalises. A statement
about a command says that `exec` answers a next state and what that state holds; `SameExcept` is its frame: every register it
does not list (every byte of the engine register space is one, or reserved) and the host's own two fields are unchanged. -/

open Sys2Proof Sys2Proof.Machine

/-! ### Reset, the register map and the host port -/

/-- 10_state R40: after reset every register holds zero, and the all-zero record is no valid record. -/
def Obligations.ResetStateHoldsZeroEverywhere : Prop :=
  (∀ r : Reg, State.reset.get r = 0x00) ∧ State.reset.delta = 0 ∧ State.reset.secs = 0 ∧ State.reset.ok = false ∧
  State.reset.wrap = false ∧ State.reset.ill = false ∧ validRecord State.reset.record = false

/-- 70_reset_and_hazards R200: the reset input zeroes every register from any state and executes no command, and no other
event clears ILL. That a reset is an access in `pending` is the model's choice (log 1). -/
def Obligations.ResetInputClearsAllAndAloneClearsIll : Prop :=
  (∀ (s : State) (rest : List HostAction), s.pending = .reset :: rest →
    ∃ t, step s = .next t ∧ (∀ r : Reg, t.get r = 0x00) ∧ t.pending = rest ∧ t.replies = s.replies) ∧
  (∀ s t : State, s.ill = true → step s = .next t → t.ill = false → ∃ rest, s.pending = .reset :: rest)

/-- 70_reset_and_hazards R202 (1): the reset record is in the domain of the time-of-day commands and out of the domain of
ALMENC, FMTD and FMTN. -/
def Obligations.ResetRecordSuitsOnlyTimeCommands : Prop :=
  inDomain .tosec State.reset = true ∧ inDomain .adv State.reset = true ∧ inDomain .fmtt State.reset = true ∧
  (∀ w, inDomain (.setmode w) State.reset = true) ∧ inDomain .almenc State.reset = false ∧
  inDomain .fmtd State.reset = false ∧ inDomain .fmtn State.reset = false

/-- 20_memory R51: the map names each register at one offset, each offset names at most one register, the offsets that name none
are the reserved ones, each register stands at the offset of the table, and a read of that offset gives the register's byte. -/
def Obligations.RegisterMapIsOneToOne : Prop :=
  (∀ r : Reg, regAt (regOffset r) = some r) ∧ (∀ (o : Byte) (r : Reg), regAt o = some r → regOffset r = o) ∧
  (∀ o : Byte, regAt o = none ↔ reservedOffset o) ∧ (∀ (o : Byte) (r : Reg), regAt o = some r → (hostWritable r = false ↔ readOnlyOffset o)) ∧
  (∀ (s : State) (r : Reg), s.peek (regOffset r) = s.get r) ∧
  regOffset (.record .seconds) = 0x00 ∧ regOffset (.record .minutes) = 0x01 ∧ regOffset (.record .hours) = 0x02 ∧
  regOffset (.record .dayOfWeek) = 0x03 ∧ regOffset (.record .day) = 0x04 ∧ regOffset (.record .month) = 0x05 ∧
  regOffset (.record .year) = 0x06 ∧ regOffset .a0 = 0x08 ∧ regOffset .a1 = 0x09 ∧ regOffset .a2 = 0x0A ∧
  regOffset .sel = 0x0B ∧ regOffset .res0 = 0x0C ∧ regOffset .res1 = 0x0D ∧ regOffset .count = 0x0E ∧
  regOffset .alen = 0x0F ∧ regOffset .status = 0x1C ∧ regOffset .cmd = 0x1F ∧
  (∀ k : Fin 4, (regOffset (.delta k)).toNat = 0x10 + k.val ∧ (regOffset (.secs k)).toNat = 0x14 + k.val ∧
    (regOffset (.alm k)).toNat = 0x18 + k.val ∧ (regOffset (.nbuf k)).toNat = 0x4C + k.val) ∧
  (∀ k : Fin 32, (regOffset (.ibuf k)).toNat = 0x20 + k.val) ∧ (∀ k : Fin 12, (regOffset (.tbuf k)).toNat = 0x40 + k.val) ∧
  (∀ k : Fin 9, (regOffset (.dbuf k)).toNat = 0x50 + k.val)

/-- 20_memory R53: `DELTA` and `SECS` stand little-endian in the register space. -/
def Obligations.WideRegistersAreLittleEndian : Prop :=
  ∀ s : State,
    s.delta.toNat = (s.peek 0x10).toNat + (s.peek 0x11).toNat * 2 ^ 8 + (s.peek 0x12).toNat * 2 ^ 16 +
      (s.peek 0x13).toNat * 2 ^ 24 ∧
    s.secs.toNat = (s.peek 0x14).toNat + (s.peek 0x15).toNat * 2 ^ 8 + (s.peek 0x16).toNat * 2 ^ 16 +
      (s.peek 0x17).toNat * 2 ^ 24

/-- 10_state R20, R39 and 20_memory R50: the engine register space shows the whole state; two machines that read alike at
every offset, with the same accesses and replies on the host's side, are the same machine. -/
def Obligations.RegisterSpaceShowsTheWholeState : Prop :=
  ∀ s t : State, (∀ o : Byte, s.peek o = t.peek o) → s.pending = t.pending → s.replies = t.replies → s = t

/-- 20_memory R56: reserved offsets read 0x00; writes to reserved and read-only offsets change nothing. The write is the next
access of `pending` (log 1). -/
def Obligations.ReservedAndReadOnlyOffsetsIgnoreWrites : Prop :=
  (∀ (s : State) (o : Byte), reservedOffset o → s.peek o = 0x00) ∧
  (∀ (s : State) (o v : Byte) (rest : List HostAction), reservedOffset o ∨ readOnlyOffset o → s.pending = .write o v :: rest →
    step s = .next { s with pending := rest })

/-- 10_state R41, 20_memory R57, R60: a read returns the byte at its offset and changes no register. That the byte is kept in
`replies` is the model's choice (log 2). -/
def Obligations.HostReadReturnsTheByteAndChangesNothing : Prop :=
  ∀ (s : State) (o : Byte) (rest : List HostAction), s.pending = .read o :: rest →
    ∃ t, step s = .next t ∧ t.replies = s.replies ++ [s.peek o] ∧ (∀ r, t.get r = s.get r) ∧ t.pending = rest

/-- 10_state R41, 20_memory R58: a host write to a writable location other than `CMD` stores that one byte and changes no other
register, not the other bytes of a 32-bit register either. -/
def Obligations.HostWriteStoresExactlyOneByte : Prop :=
  ∀ (s : State) (o v : Byte) (rest : List HostAction), ¬ reservedOffset o → ¬ readOnlyOffset o → o ≠ 0x1F → s.pending = .write o v :: rest →
    ∃ t, step s = .next t ∧ t.peek o = v ∧ (∀ o' : Byte, o' ≠ o → t.peek o' = s.peek o') ∧ t.pending = rest ∧
      t.replies = s.replies

/-- 70_reset_and_hazards R207, R193 and log 1 (the model's choice of what a step is once the host's list is exhausted): the
block idles. -/
def Obligations.IdleBlockStays : Prop :=
  ∀ s : State, s.pending = [] → step s = .next s

/-! ### Encoding and decoding -/

/-- 30_encoding R74: the complete opcode map, byte by byte; every other byte is refused, and no byte selects two rows. -/
def Obligations.OpcodeMapIsComplete : Prop :=
  decode 0x01 = .ok .d2b ∧ decode 0x02 = .ok .b2d ∧ decode 0x03 = .ok .b2a ∧ decode 0x10 = .ok .ptime ∧
  decode 0x11 = .ok .pdt ∧ decode 0x20 = .ok (.setmode false) ∧ decode 0x21 = .ok (.setmode true) ∧
  decode 0x30 = .ok .dow ∧ decode 0x40 = .ok .tosec ∧ decode 0x41 = .ok .adv ∧ decode 0x50 = .ok .almenc ∧
  decode 0x52 = .ok (.almdec false) ∧ decode 0x53 = .ok (.almdec true) ∧ decode 0x60 = .ok .fmtt ∧
  decode 0x61 = .ok .fmtd ∧ decode 0x62 = .ok .fmtn ∧
  (∀ c : Byte, c ∉ legalCodes → decode c = .error (.illegalCommand c)) ∧
  (∀ c : Byte, (opcodeMap.filter (rowMatches c)).length ≤ 1)

/-- 30_encoding R70 to R74: decoding the byte of any command gives that command with its immediate, and a byte that decodes is
the byte its command encodes to. -/
def Obligations.DecodeAndEncodeAgree : Prop :=
  (∀ i : Instr, decode (encode i) = .ok i) ∧ (∀ (c : Byte) (i : Instr), decode c = .ok i → encode i = c)

/-- 10_state R33: when the host's next access writes a byte to `CMD` that decodes to a command, the step is `exec` of that
command on the state with the byte stored in `CMD` and the access served. The form of the access is the model's (log 1). -/
def Obligations.StepRunsTheDecodedCommand : Prop :=
  ∀ (s : State) (c : Byte) (i : Instr) (rest : List HostAction), s.pending = .write 0x1F c :: rest → decode c = .ok i →
    step s = exec i { s with pending := rest, cmd := c }

/-- 30_encoding R76: an illegal byte is stored in `CMD`, sets ILL, and changes nothing else. The form of the access is the
model's (log 1). -/
def Obligations.IllegalCommandSetsOnlyIll : Prop :=
  ∀ (s : State) (c : Byte) (rest : List HostAction), s.pending = .write 0x1F c :: rest → c ∉ legalCodes →
    ∃ t, step s = .next t ∧ t.cmd = c ∧ t.ill = true ∧ t.ok = s.ok ∧ t.wrap = s.wrap ∧
      statusReserved t = statusReserved s ∧ (∀ r, r ≠ .cmd → r ≠ .status → t.get r = s.get r) ∧ t.pending = rest ∧
      t.replies = s.replies

/-- 30_encoding R77, R78: the three actions and the pseudo-actions stand for the accesses the tables give, byte for byte; a
mnemonic is a write of its command byte to `CMD`, and a string is written from `IBUF[0]` on and ended by a NUL. -/
def Obligations.PseudoActionsExpandToTheirAccesses : Prop :=
  (∀ (r : Reg) (v : Byte), Action.expand (.wr r v) = [.write (regOffset r) v]) ∧
  (∀ r : Reg, Action.expand (.rd r) = [.read (regOffset r)]) ∧
  (∀ i : Instr, Action.expand (.command i) = [.write 0x1F (encode i)]) ∧
  Action.expand .mode12 = [.write 0x1F 0x21] ∧ Action.expand .mode24 = [.write 0x1F 0x20] ∧
  Action.expand .almdec1 = [.write 0x1F 0x52] ∧ Action.expand .almdec2 = [.write 0x1F 0x53] ∧
  (∀ b0 b1 b2 b3 b4 b5 b6, Action.expand (.ldrec b0 b1 b2 b3 b4 b5 b6) =
    [.write 0x00 b0, .write 0x01 b1, .write 0x02 b2, .write 0x03 b3, .write 0x04 b4, .write 0x05 b5, .write 0x06 b6]) ∧
  (∀ b0 b1 b2, Action.expand (.ldtime b0 b1 b2) = [.write 0x00 b0, .write 0x01 b1, .write 0x02 b2]) ∧
  (∀ v : Word32, Action.expand (.wr32Delta v) =
    [.write 0x10 (v.extractLsb' 0 8), .write 0x11 (v.extractLsb' 8 8), .write 0x12 (v.extractLsb' 16 8),
     .write 0x13 (v.extractLsb' 24 8)]) ∧
  Action.expand .rd32Secs = [.read 0x14, .read 0x15, .read 0x16, .read 0x17] ∧
  (∀ x0 x1 x2 x3, Action.expand (.ldalm x0 x1 x2 x3) =
    [.write 0x18 x0, .write 0x19 x1, .write 0x1A x2, .write 0x1B x3]) ∧
  (∀ chars : List Byte, Action.wellFormed (.ldstr chars) = true →
    (Action.expand (.ldstr chars)).length = chars.length + 1 ∧
    ∀ k, k ≤ chars.length →
      (Action.expand (.ldstr chars))[k]? = some (.write (BitVec.ofNat 8 (0x20 + k)) (chars.getD k 0x00)))

/-! ### The whole machine -/

/-- 60_exceptions R180: every step, from any state and whatever the host issues, ends in a next state. -/
def Obligations.EveryStepAnswersANextState : Prop :=
  ∀ s : State, ∃ t, step s = .next t

/-- 10_state R27, R30 to R32, R35 to R37: the result registers keep to the values those rules give, through every step from
every state that has them so. -/
def Obligations.LegalRegistersAreKept : Prop :=
  ∀ s t : State, RegistersLegal s → step s = .next t → RegistersLegal t

/-- 10_state R40: the result registers are legal at reset. -/
def Obligations.LegalRegistersAtReset : Prop :=
  RegistersLegal State.reset

/-- 20_memory R66: every command completes and touches no location outside its list. -/
def Obligations.CommandsWriteOnlyTheirLocations : Prop :=
  ∀ (i : Instr) (s : State), ∃ t, exec i s = .next t ∧ SameExcept (writesOf i) s t

/-- 20_memory R66, 10_state R39: what a command leaves in its destinations depends on nothing but its operands and, for the
destinations `mayKeep` lists (the slots a parse may not commit, R110, and the `STATUS` of PTIME, PDT and ADV), their old values. -/
def Obligations.CommandsDependOnlyOnTheirLocations : Prop :=
  ∀ (i : Instr) (s1 s2 : State), (∀ r, r ∈ readsOf i ∨ r ∈ mayKeep i → s1.get r = s2.get r) →
    ∃ t1 t2, exec i s1 = .next t1 ∧ exec i s2 = .next t2 ∧ ∀ r, r ∈ writesOf i → t1.get r = t2.get r

/-- 10_state R32, 30_encoding R75: OK is written by PTIME and PDT only, WRAP by ADV only, ILL and the reserved bits by no
command. -/
def Obligations.FlagsAreWrittenByTheirOwnersOnly : Prop :=
  ∀ (i : Instr) (s : State), ∃ t, exec i s = .next t ∧ (i ≠ .ptime → i ≠ .pdt → t.ok = s.ok) ∧ (i ≠ .adv → t.wrap = s.wrap) ∧
    t.ill = s.ill ∧ statusReserved t = statusReserved s

/-- 00_scope R12, 42_mode_converter R120, 44_time_arithmetic R142: the two commands that change the record in place keep it in
the domain of every time-of-day command. -/
def Obligations.InPlaceCommandsKeepAValidTime : Prop :=
  ∀ s : State, validTime s.record = true →
    (∀ w, ∃ t, exec (.setmode w) s = .next t ∧ validTime t.record = true) ∧
    (∃ t, exec .adv s = .next t ∧ validTime t.record = true)

/-! ### Family 0, the BCD Codec -/

/-- 40_bcd_codec R90. -/
def Obligations.D2bPacksTensAndUnits : Prop :=
  decode 0x01 = .ok .d2b ∧
  ∀ s : State, ∃ t, exec .d2b s = .next t ∧ t.res0.toNat = s.a0.toNat / 10 % 16 * 16 + s.a0.toNat % 10 ∧
    SameExcept [.res0] s t

/-- 40_bcd_codec R91. -/
def Obligations.B2dUnpacksTensAndUnits : Prop :=
  decode 0x02 = .ok .b2d ∧
  ∀ s : State, ∃ t, exec .b2d s = .next t ∧ t.res0.toNat = 10 * (s.a0.toNat / 16) + s.a0.toNat % 16 ∧ SameExcept [.res0] s t

/-- 40_bcd_codec R92. -/
def Obligations.B2aRendersBothNibbles : Prop :=
  decode 0x03 = .ok .b2a ∧
  ∀ s : State, ∃ t, exec .b2a s = .next t ∧ t.res0.toNat = 0x30 + s.a0.toNat / 16 ∧ t.res1.toNat = 0x30 + s.a0.toNat % 16 ∧
    SameExcept [.res0, .res1] s t

/-- 40_bcd_codec R93: the round trips, as functions and as the command sequence, and their failure outside the domain. -/
def Obligations.BcdRoundTripHoldsOnTheDomain : Prop :=
  (∀ b : Byte, isBcd b = true → bcd (dec b) = b) ∧ (∀ n : Nat, n ≤ 99 → dec (bcd n) = n ∧ isBcd (bcd n) = true) ∧
  (∀ s : State, isBcd s.a0 = true → ∃ t u, exec .b2d s = .next t ∧ exec .d2b (t.set .a0 t.res0) = .next u ∧ u.res0 = s.a0) ∧
  bcd (dec 0x0A) = 0x10

/-! ### Family 1, the Time Record Parser -/

/-- 10_state R31, R32, 41_parser R105, R106: each parse completes on any buffer, its count is at most the number of groups, OK
says that all of them were committed, WRAP and ILL and every register outside its destinations stay. -/
def Obligations.ParseReportsItsCount : Prop :=
  ∀ s : State,
    (∃ t, exec .ptime s = .next t ∧ t.count.toNat ≤ 3 ∧ (t.ok = true ↔ t.count = 3) ∧ t.wrap = s.wrap ∧ t.ill = s.ill ∧
      statusReserved t = statusReserved s ∧ SameExcept (timeRegs ++ [.count, .status]) s t) ∧
    (∃ t, exec .pdt s = .next t ∧ t.count.toNat ≤ 6 ∧ (t.ok = true ↔ t.count = 6) ∧ t.wrap = s.wrap ∧ t.ill = s.ill ∧
      statusReserved t = statusReserved s ∧ SameExcept (recordRegs ++ [.count, .status]) s t)

/-- 41_parser R112: PTIME and PDT succeed on exactly the accepted language, of three and of six groups. -/
def Obligations.ParserAcceptsExactlyTheLanguage : Prop :=
  ∀ s : State,
    (∃ t, exec .ptime s = .next t ∧ (t.ok = true ↔ Accepted 3 s.ibuf.toList)) ∧
    (∃ t, exec .pdt s = .next t ∧ (t.ok = true ↔ Accepted 6 s.ibuf.toList))

/-- 41_parser R105, R102, R104, R107, R109: on accepted text PTIME stores hour, minute and second in that input order, with the
marker of the terminator in the hours byte, sets COUNT and OK, and changes nothing else, the other bits of STATUS included. -/
def Obligations.PtimeStoresItsThreeGroups : Prop :=
  ∀ (s : State) (g1 g2 g3 tail : List Byte) (d1 d2 : Byte),
    IsGroup g1 → IsGroup g2 → IsGroup g3 → isDelimiter d1 = true → isDelimiter d2 = true → Terminated g3 tail →
    s.ibuf.toList = g1 ++ d1 :: (g2 ++ d2 :: (g3 ++ tail)) →
    ∃ t, exec .ptime s = .next t ∧ t.record.hours = groupByte g1 ||| markerBits tail ∧ t.record.minutes = groupByte g2 ∧
      t.record.seconds = groupByte g3 ∧ t.count = 3 ∧ t.ok = true ∧ t.wrap = s.wrap ∧ t.ill = s.ill ∧
      statusReserved t = statusReserved s ∧ SameExcept (timeRegs ++ [.count, .status]) s t

/-- 41_parser R106, 43_calendar R131: on accepted text PDT stores month, day, year, hour, minute and second, with the marker in
the hours byte, and the formula's day of week, sets COUNT and OK, and changes nothing else, the other bits of STATUS included. -/
def Obligations.PdtStoresItsSixGroupsAndTheDay : Prop :=
  ∀ (s : State) (g1 g2 g3 g4 g5 g6 tail : List Byte) (d1 d2 d3 d4 d5 : Byte),
    IsGroup g1 → IsGroup g2 → IsGroup g3 → IsGroup g4 → IsGroup g5 → IsGroup g6 →
    isDelimiter d1 = true → isDelimiter d2 = true → isDelimiter d3 = true → isDelimiter d4 = true →
    isDelimiter d5 = true → Terminated g6 tail →
    s.ibuf.toList = g1 ++ d1 :: (g2 ++ d2 :: (g3 ++ d3 :: (g4 ++ d4 :: (g5 ++ d5 :: (g6 ++ tail))))) →
    ∃ t, exec .pdt s = .next t ∧ t.record.month = groupByte g1 ∧ t.record.day = groupByte g2 ∧
      t.record.year = groupByte g3 ∧ t.record.hours = groupByte g4 ||| markerBits tail ∧
      t.record.minutes = groupByte g5 ∧ t.record.seconds = groupByte g6 ∧
      t.record.dayOfWeek.toNat =
        (dec (groupByte g2) + 13 * (dec (groupByte g1) + 1) / 5 + dec (groupByte g3) + dec (groupByte g3) / 4 + 105) % 7 + 1 ∧
      t.count = 6 ∧ t.ok = true ∧ t.wrap = s.wrap ∧ t.ill = s.ill ∧ statusReserved t = statusReserved s ∧
      SameExcept (recordRegs ++ [.count, .status]) s t

/-- 41_parser R103, R110: a third digit in a group ends the scan; that group and the later ones are not committed, and the state is
that of a failed parse with the groups before it. -/
def Obligations.ThirdDigitEndsTheParse : Prop :=
  ∀ (s : State) (body : List (List Byte × Byte)) (c1 c2 c3 : Byte) (rest : List Byte),
    IsBody body → isDigit c1 = true → isDigit c2 = true → isDigit c3 = true →
    s.ibuf.toList = joinGroups body ++ c1 :: c2 :: c3 :: rest →
    (body.length < 3 → ∃ t, exec .ptime s = .next t ∧ FailedParse timeMap (body.map Prod.fst) s t) ∧
    (body.length < 6 → ∃ t, exec .pdt s = .next t ∧ FailedParse dateTimeMap (body.map Prod.fst) s t)

/-- 41_parser R107, R110: when a NUL comes too early, the group in progress is committed only if it has a digit, and the state is
that of a failed parse with the groups committed. (The end of the 32-byte buffer, R108, is never reached: six groups and their
delimiters are at most 18 characters.) -/
def Obligations.ShortInputEndsTheParse : Prop :=
  ∀ (s : State) (body : List (List Byte × Byte)) (g rest : List Byte),
    IsBody body → IsGroup g → s.ibuf.toList = joinGroups body ++ g ++ 0x00 :: rest →
    ((groupsAtEnd body g).length < 3 → ∃ t, exec .ptime s = .next t ∧ FailedParse timeMap (groupsAtEnd body g) s t) ∧
    ((groupsAtEnd body g).length < 6 → ∃ t, exec .pdt s = .next t ∧ FailedParse dateTimeMap (groupsAtEnd body g) s t)

/-! ### Family 2, the Mode Converter -/

/-- 42_mode_converter R120: the no-op when the mode already matches, and otherwise both conversions, in plain arithmetic over the
decoded hour (`h` of bits 5:0, or of bits 4:0), on every hours byte. -/
def Obligations.SetmodeConvertsTheHoursByte : Prop :=
  decode 0x20 = .ok (.setmode false) ∧ decode 0x21 = .ok (.setmode true) ∧
  ∀ (w : Bool) (s : State), ∃ t, exec (.setmode w) s = .next t ∧ SameExcept [.record .hours] s t ∧
    (s.record.hours.getLsbD 6 = w → t.record.hours = s.record.hours) ∧
    (s.record.hours.getLsbD 6 = false → w = true → ∀ h : Nat, h = dec (s.record.hours &&& 0x3F) →
      t.record.hours.toNat = 0x40 + (if 12 ≤ h then 0x20 else 0) + ((h + 11) % 12 + 1) / 10 * 16 + ((h + 11) % 12 + 1) % 10) ∧
    (s.record.hours.getLsbD 6 = true → w = false →
      ∀ h : Nat, h = dec (s.record.hours &&& 0x1F) % 12 + (if s.record.hours.getLsbD 5 then 12 else 0) →
        t.record.hours.toNat = h / 10 * 16 + h % 10)

/-- 42_mode_converter R122: from 24-hour mode and back, and from 12-hour mode and back, reproduce the hours byte on the domain;
out of it 0x29 goes to 0x65 and comes back as 0x17. -/
def Obligations.ModeRoundTripReproducesTheHour : Prop :=
  (∀ (w : Bool) (s : State), validHourByte s.record.hours = true → is12 s.record.hours = !w →
    ∃ t u, exec (.setmode w) s = .next t ∧ exec (.setmode (!w)) t = .next u ∧ u = s) ∧
  (∀ s : State, s.record.hours = 0x29 → ∃ t u, exec (.setmode true) s = .next t ∧ t.record.hours = 0x65 ∧
    exec (.setmode false) t = .next u ∧ u.record.hours = 0x17)

/-- 42_mode_converter R123: on the domain SETMODE does not change the time of day, so TOSEC gives the same `SECS`. -/
def Obligations.SetmodeKeepsTheTimeOfDay : Prop :=
  ∀ (w : Bool) (s : State), validHourByte s.record.hours = true →
    ∃ t u v, exec (.setmode w) s = .next t ∧ timeOfDayHour t.record.hours = timeOfDayHour s.record.hours ∧
      exec .tosec s = .next u ∧ exec .tosec t = .next v ∧ v.secs = u.secs

/-! ### Family 3, the Calendar Calculator -/

/-- 43_calendar R130, R131: the formula as written, on every operand, always 1 to 7. -/
def Obligations.DowComputesTheFormula : Prop :=
  decode 0x30 = .ok .dow ∧
  ∀ s : State, ∃ t, exec .dow s = .next t ∧
    t.res0.toNat = (s.a1.toNat + 13 * (s.a0.toNat + 1) / 5 + s.a2.toNat + s.a2.toNat / 4 + 20 / 4 + 5 * 20) % 7 + 1 ∧
    1 ≤ t.res0.toNat ∧ t.res0.toNat ≤ 7 ∧ SameExcept [.res0] s t

/-! ### Family 4, Time Arithmetic -/

/-- 44_time_arithmetic R141: on a valid hours byte re-encoding the hour of the day in the byte's own mode gives the byte back, the
hour is at most 23, and out of the domain it is at most 45 or, in 12-hour mode, 37. -/
def Obligations.EncodeHourInvertsTimeOfDayHour : Prop :=
  ∀ b : Byte, (validHourByte b = true → encodeHour (timeOfDayHour b) (is12 b) = b ∧ timeOfDayHour b ≤ 23) ∧
    timeOfDayHour b ≤ 45 ∧ (is12 b = true → timeOfDayHour b ≤ 37)

/-- 44_time_arithmetic R140: seconds since midnight on every record, at most 86399 on the domain and 172065 anywhere. -/
def Obligations.TosecCountsSecondsSinceMidnight : Prop :=
  decode 0x40 = .ok .tosec ∧
  ∀ s : State, ∃ t, exec .tosec s = .next t ∧
    (s.record.hours.getLsbD 6 = false →
      t.secs.toNat = dec (s.record.hours &&& 0x3F) * 3600 + dec s.record.minutes * 60 + dec s.record.seconds) ∧
    (s.record.hours.getLsbD 6 = true →
      t.secs.toNat = ((if dec (s.record.hours &&& 0x1F) = 12 then 0 else dec (s.record.hours &&& 0x1F)) +
        (if s.record.hours.getLsbD 5 then 12 else 0)) * 3600 + dec s.record.minutes * 60 + dec s.record.seconds) ∧
    (validTime s.record = true → t.secs.toNat ≤ 86399) ∧ t.secs.toNat ≤ 172065 ∧
    SameExcept [.secs 0, .secs 1, .secs 2, .secs 3] s t

/-- 44_time_arithmetic R142: from any record and any `DELTA`, the new time of day is the exact sum modulo a day as a valid time in
the record's own mode, each slot the value the rule gives for that sum, and WRAP says that the sum reached a day. -/
def Obligations.AdvAddsModuloADay : Prop :=
  decode 0x41 = .ok .adv ∧
  ∀ s : State, ∃ t, exec .adv s = .next t ∧ validTime t.record = true ∧
    secondsOf t.record = (secondsOf s.record + s.delta.toNat) % 86400 ∧
    (∀ n : Nat, n = (secondsOf s.record + s.delta.toNat) % 86400 →
      t.record.seconds.toNat = n % 60 / 10 * 16 + n % 60 % 10 ∧
      t.record.minutes.toNat = n / 60 % 60 / 10 * 16 + n / 60 % 60 % 10 ∧
      t.record.hours = encodeHour (n / 3600) (s.record.hours.getLsbD 6)) ∧
    (t.wrap = true ↔ 86400 ≤ secondsOf s.record + s.delta.toNat) ∧
    t.record.hours.getLsbD 6 = s.record.hours.getLsbD 6 ∧ t.ok = s.ok ∧ t.ill = s.ill ∧
    statusReserved t = statusReserved s ∧ SameExcept (timeRegs ++ [.status]) s t

/-- 44_time_arithmetic R142: the two facts that make the previous statement fix the record: a valid time is determined by its mode
and its seconds, and on a valid time an ADV of zero changes nothing but WRAP, which it clears. -/
def Obligations.ValidTimeIsItsSecondsAndMode : Prop :=
  (∀ r1 r2 : TimeRecord, validTime r1 = true → validTime r2 = true → is12 r1.hours = is12 r2.hours → secondsOf r1 = secondsOf r2 →
    r1.seconds = r2.seconds ∧ r1.minutes = r2.minutes ∧ r1.hours = r2.hours) ∧
  (∀ s : State, validTime s.record = true → s.delta = 0 → ∃ t, exec .adv s = .next t ∧ t.record = s.record ∧ t.wrap = false ∧
    t.ok = s.ok ∧ t.ill = s.ill ∧ statusReserved t = statusReserved s ∧ SameExcept [.status] s t)

/-- 44_time_arithmetic R143: TOSEC after ADV, two ADVs against one, and the record for a count of seconds. -/
def Obligations.AdvanceLawsHold : Prop :=
  (∀ s : State, validTime s.record = true → ∃ a t b, exec .tosec s = .next a ∧ exec .adv s = .next t ∧ exec .tosec t = .next b ∧
    b.secs.toNat = (a.secs.toNat + s.delta.toNat) % 86400 ∧ (t.wrap = true ↔ 86400 ≤ a.secs.toNat + s.delta.toNat) ∧
    t.record.hours.getLsbD 6 = s.record.hours.getLsbD 6) ∧
  (∀ (s : State) (d1 d2 : Word32), validTime s.record = true → d1.toNat + d2.toNat < 2 ^ 32 →
    ∃ t u v, exec .adv { s with delta := d1 } = .next t ∧ exec .adv { t with delta := d2 } = .next u ∧
      exec .adv { s with delta := d1 + d2 } = .next v ∧ u.record = v.record) ∧
  (∀ s : State, s.delta.toNat ≤ 86399 → s.record.seconds = 0x00 → s.record.minutes = 0x00 →
    s.record.hours = 0x00 ∨ s.record.hours = 0x52 →
    ∃ t, exec .adv s = .next t ∧ secondsOf t.record = s.delta.toNat ∧ is12 t.record.hours = is12 s.record.hours ∧
      validTime t.record = true ∧ t.wrap = false)

/-! ### Family 5, the Alarm Codec -/

/-- 45_alarm R153 with R151, R152: each emitted byte has bit 7 from its selector bit and bits 6:0 from its record byte; the day/date
byte has bit 6 from selector bit 4; channel 2 has no seconds byte and clears `ALM[3]`; `ALEN` is 4 or 3. -/
def Obligations.AlmencEmitsTheChannelsBytes : Prop :=
  decode 0x50 = .ok .almenc ∧
  ∀ s : State, ∃ t, exec .almenc s = .next t ∧ SameExcept (almRegs ++ [.alen]) s t ∧
    (s.sel.getLsbD 7 = false →
      t.alm[0].toNat = s.record.seconds.toNat % 128 + (if s.sel.getLsbD 0 then 128 else 0) ∧
      t.alm[1].toNat = s.record.minutes.toNat % 128 + (if s.sel.getLsbD 1 then 128 else 0) ∧
      t.alm[2].toNat = s.record.hours.toNat % 128 + (if s.sel.getLsbD 2 then 128 else 0) ∧
      t.alm[3].toNat = (if s.sel.getLsbD 3 then 128 else 0) +
        (if s.sel.getLsbD 4 then 64 + s.record.dayOfWeek.toNat % 64 else s.record.day.toNat % 64) ∧
      t.alen = 4) ∧
    (s.sel.getLsbD 7 = true →
      t.alm[0].toNat = s.record.minutes.toNat % 128 + (if s.sel.getLsbD 1 then 128 else 0) ∧
      t.alm[1].toNat = s.record.hours.toNat % 128 + (if s.sel.getLsbD 2 then 128 else 0) ∧
      t.alm[2].toNat = (if s.sel.getLsbD 3 then 128 else 0) +
        (if s.sel.getLsbD 4 then 64 + s.record.dayOfWeek.toNat % 64 else s.record.day.toNat % 64) ∧
      t.alm[3] = 0x00 ∧ t.alen = 3)

/-- 45_alarm R155: the time-of-day bytes of the channel are copied whole, the day/date byte is not read, and nothing else of the
record or of `ALM` changes. -/
def Obligations.AlmdecCopiesTimeBytesWhole : Prop :=
  decode 0x52 = .ok (.almdec false) ∧ decode 0x53 = .ok (.almdec true) ∧
  ∀ s : State, (∃ t, exec (.almdec false) s = .next t ∧ t.record.get .seconds = s.get (.alm 0) ∧
      t.record.get .minutes = s.get (.alm 1) ∧ t.record.get .hours = s.get (.alm 2) ∧ t.alen = 3 ∧
      SameExcept (timeRegs ++ [.alen]) s t) ∧
    (∃ t, exec (.almdec true) s = .next t ∧ t.record.get .minutes = s.get (.alm 0) ∧
      t.record.get .hours = s.get (.alm 1) ∧ t.alen = 2 ∧
      SameExcept [.record .minutes, .record .hours, .alen] s t)

/-- 45_alarm R156: ALMENC then ALMDEC gives the slots back in bits 6:0 with the selector's bits in bit 7, on both channels, and
`ALM`'s day/date byte has selector bit 3 in bit 7. The law is asked for records with bit 7 clear and holds for every record. -/
def Obligations.AlarmRoundTripReproducesTheTime : Prop :=
  ∀ s : State, ∃ t u, exec .almenc s = .next t ∧ exec (.almdec (s.sel.getLsbD 7)) t = .next u ∧
    u.record.minutes.toNat % 128 = s.record.minutes.toNat % 128 ∧ u.record.minutes.getLsbD 7 = s.sel.getLsbD 1 ∧
    u.record.hours.toNat % 128 = s.record.hours.toNat % 128 ∧ u.record.hours.getLsbD 7 = s.sel.getLsbD 2 ∧
    (s.sel.getLsbD 7 = false → u.record.seconds.toNat % 128 = s.record.seconds.toNat % 128 ∧
      u.record.seconds.getLsbD 7 = s.sel.getLsbD 0 ∧ u.alm[3].getLsbD 7 = s.sel.getLsbD 3) ∧
    (s.sel.getLsbD 7 = true → u.record.seconds = s.record.seconds)

/-- 45_alarm R158: the selector bits are recovered from the image ALMENC leaves, all but the unused ones and, on channel 2,
bit 0; the field of a time byte is the record's bits 6:0, and the value of the day/date byte bits 5:0 of the slot the
discriminator names. -/
def Obligations.SelectorIsRecoveredFromTheImage : Prop :=
  ∀ s : State, ∃ t, exec .almenc s = .next t ∧
    (s.sel.getLsbD 7 = false →
      alarmParticipates t.alm[0] = s.sel.getLsbD 0 ∧ alarmParticipates t.alm[1] = s.sel.getLsbD 1 ∧
      alarmParticipates t.alm[2] = s.sel.getLsbD 2 ∧ alarmParticipates t.alm[3] = s.sel.getLsbD 3 ∧
      alarmIsDayOfWeek t.alm[3] = s.sel.getLsbD 4 ∧
      alarmDayDate t.alm[3] = (if s.sel.getLsbD 4 then s.record.dayOfWeek else s.record.day) &&& 0x3F ∧ alarmField t.alm[0] = s.record.seconds &&& 0x7F ∧
      alarmField t.alm[1] = s.record.minutes &&& 0x7F ∧ alarmField t.alm[2] = s.record.hours &&& 0x7F) ∧
    (s.sel.getLsbD 7 = true →
      alarmParticipates t.alm[0] = s.sel.getLsbD 1 ∧ alarmParticipates t.alm[1] = s.sel.getLsbD 2 ∧
      alarmParticipates t.alm[2] = s.sel.getLsbD 3 ∧ alarmIsDayOfWeek t.alm[2] = s.sel.getLsbD 4 ∧
      alarmDayDate t.alm[2] = (if s.sel.getLsbD 4 then s.record.dayOfWeek else s.record.day) &&& 0x3F ∧
      alarmField t.alm[0] = s.record.minutes &&& 0x7F ∧ alarmField t.alm[1] = s.record.hours &&& 0x7F)

/-- 20_memory R64, 45_alarm R153: after ALMENC the host's device write carries exactly the channel's registers, to the channel's
base, one byte an address. That the addresses are counted up from the base as naturals, with no wrap at the top of the one-byte
device space, is the model's choice (log 5). -/
def Obligations.AlarmWriteCarriesTheChannelsRegisters : Prop :=
  ∀ s : State, ∃ t, exec .almenc s = .next t ∧
    (s.sel.getLsbD 7 = false → (writeAlarm t).cells =
      [(Config.alarm1Base.toNat, t.alm[0]), (Config.alarm1Base.toNat + 1, t.alm[1]),
       (Config.alarm1Base.toNat + 2, t.alm[2]), (Config.alarm1Base.toNat + 3, t.alm[3])]) ∧
    (s.sel.getLsbD 7 = true → (writeAlarm t).cells =
      [(Config.alarm2Base.toNat, t.alm[0]), (Config.alarm2Base.toNat + 1, t.alm[1]),
       (Config.alarm2Base.toNat + 2, t.alm[2])])

/-! ### Family 6, the Formatter -/

/-- 46_formatter R166: every byte of the time string on every record: the hour from its hour bits alone, tens before units, the
suffix in 12-hour mode, a cleared tail in 24-hour mode. -/
def Obligations.FmttRendersTheTime : Prop :=
  decode 0x60 = .ok .fmtt ∧
  ∀ s : State, ∃ t, exec .fmtt s = .next t ∧ SameExcept ((List.finRange 12).map .tbuf) s t ∧
    (∀ h : Nat, h = (s.record.hours &&& (if s.record.hours.getLsbD 6 then 0x1F else 0x3F)).toNat →
      t.tbuf[0].toNat = 0x30 + h / 16 ∧ t.tbuf[1].toNat = 0x30 + h % 16) ∧
    t.tbuf[2] = 0x3A ∧ t.tbuf[3].toNat = 0x30 + s.record.minutes.toNat / 16 ∧
    t.tbuf[4].toNat = 0x30 + s.record.minutes.toNat % 16 ∧ t.tbuf[5] = 0x3A ∧
    t.tbuf[6].toNat = 0x30 + s.record.seconds.toNat / 16 ∧ t.tbuf[7].toNat = 0x30 + s.record.seconds.toNat % 16 ∧
    (s.record.hours.getLsbD 6 = true → t.tbuf[8] = 0x20 ∧
      t.tbuf[9] = (if s.record.hours.getLsbD 5 then 0x50 else 0x41) ∧ t.tbuf[10] = 0x4D ∧ t.tbuf[11] = 0x00) ∧
    (s.record.hours.getLsbD 6 = false → t.tbuf[8] = 0x00 ∧ t.tbuf[9] = 0x00 ∧ t.tbuf[10] = 0x00 ∧ t.tbuf[11] = 0x00)

/-- 46_formatter R167: every byte of the date string on every record, month, day, year, ended by a NUL. -/
def Obligations.FmtdRendersTheDate : Prop :=
  decode 0x61 = .ok .fmtd ∧
  ∀ s : State, ∃ t, exec .fmtd s = .next t ∧ SameExcept ((List.finRange 9).map .dbuf) s t ∧
    t.dbuf[0].toNat = 0x30 + s.record.month.toNat / 16 ∧ t.dbuf[1].toNat = 0x30 + s.record.month.toNat % 16 ∧
    t.dbuf[2] = 0x2F ∧ t.dbuf[3].toNat = 0x30 + s.record.day.toNat / 16 ∧
    t.dbuf[4].toNat = 0x30 + s.record.day.toNat % 16 ∧ t.dbuf[5] = 0x2F ∧
    t.dbuf[6].toNat = 0x30 + s.record.year.toNat / 16 ∧ t.dbuf[7].toNat = 0x30 + s.record.year.toNat % 16 ∧
    t.dbuf[8] = 0x00

/-- 46_formatter R168 with the table of R165: the three letters of the stored value 1 to 7, `???` for every other byte, a NUL. -/
def Obligations.FmtnNamesTheDay : Prop :=
  decode 0x62 = .ok .fmtn ∧
  ∀ s : State, ∃ t, exec .fmtn s = .next t ∧ SameExcept ((List.finRange 4).map .nbuf) s t ∧ t.nbuf[3] = 0x00 ∧
    (∀ letters : Byte × Byte × Byte, letters = (t.nbuf[0], t.nbuf[1], t.nbuf[2]) →
      (s.record.dayOfWeek = 1 → letters = (0x53, 0x75, 0x6E)) ∧ (s.record.dayOfWeek = 2 → letters = (0x4D, 0x6F, 0x6E)) ∧
      (s.record.dayOfWeek = 3 → letters = (0x54, 0x75, 0x65)) ∧ (s.record.dayOfWeek = 4 → letters = (0x57, 0x65, 0x64)) ∧
      (s.record.dayOfWeek = 5 → letters = (0x54, 0x68, 0x72)) ∧ (s.record.dayOfWeek = 6 → letters = (0x46, 0x72, 0x69)) ∧
      (s.record.dayOfWeek = 7 → letters = (0x53, 0x61, 0x74)) ∧
      (s.record.dayOfWeek = 0 ∨ 8 ≤ s.record.dayOfWeek.toNat → letters = (0x3F, 0x3F, 0x3F)))

/-- 46_formatter R169, the general sentence: a two-digit 24-hour time PTIME accepts, hour 00 to 39, is rendered by FMTT as the very
characters that were parsed. (From 40 on the hour's digits reach the mode flag, 41_parser R105.) -/
def Obligations.ParsedTimeIsRenderedUnchanged : Prop :=
  ∀ (s : State) (h1 h0 m1 m0 s1 s0 : Byte) (rest : List Byte),
    isDigit h1 = true → h1.toNat ≤ 0x33 → isDigit h0 = true → isDigit m1 = true → isDigit m0 = true →
    isDigit s1 = true → isDigit s0 = true →
    s.ibuf.toList = [h1, h0, 0x3A, m1, m0, 0x3A, s1, s0, 0x00] ++ rest →
    ∃ t u, exec .ptime s = .next t ∧ exec .fmtt t = .next u ∧
      u.tbuf.toList = [h1, h0, 0x3A, m1, m0, 0x3A, s1, s0, 0x00, 0x00, 0x00, 0x00]

/-- 46_formatter R169, the document's own example: one-digit groups are rendered with two digits each. -/
def Obligations.OneDigitGroupsAreRenderedPadded : Prop :=
  ∀ (s : State) (h m d : Byte) (rest : List Byte), isDigit h = true → isDigit m = true → isDigit d = true →
    s.ibuf.toList = [h, 0x3A, m, 0x3A, d, 0x00] ++ rest →
    ∃ t u, exec .ptime s = .next t ∧ exec .fmtt t = .next u ∧
      u.tbuf.toList = [0x30, h, 0x3A, 0x30, m, 0x3A, 0x30, d, 0x00, 0x00, 0x00, 0x00]

/-! ### The registers by name, and the domain of the two parses -/

/-- 20_memory R51, R52, R55: what a read of each offset of the table returns, in terms of the state's own fields. (`DELTA` and
`SECS` are WideRegistersAreLittleEndian.) -/
def Obligations.NamedRegistersReadAtTheirOffsets : Prop :=
  ∀ s : State,
    s.peek 0x00 = s.record.seconds ∧ s.peek 0x01 = s.record.minutes ∧ s.peek 0x02 = s.record.hours ∧
    s.peek 0x03 = s.record.dayOfWeek ∧ s.peek 0x04 = s.record.day ∧ s.peek 0x05 = s.record.month ∧
    s.peek 0x06 = s.record.year ∧ s.peek 0x08 = s.a0 ∧ s.peek 0x09 = s.a1 ∧ s.peek 0x0A = s.a2 ∧ s.peek 0x0B = s.sel ∧
    s.peek 0x0C = s.res0 ∧ s.peek 0x0D = s.res1 ∧ s.peek 0x0E = s.count ∧ s.peek 0x0F = s.alen ∧
    s.peek 0x1C = s.status ∧ s.peek 0x1F = s.cmd ∧
    (∀ k : Fin 4, s.peek (BitVec.ofNat 8 (0x18 + k.val)) = s.alm[k.val]) ∧
    (∀ k : Fin 32, s.peek (BitVec.ofNat 8 (0x20 + k.val)) = s.ibuf[k.val]) ∧
    (∀ k : Fin 12, s.peek (BitVec.ofNat 8 (0x40 + k.val)) = s.tbuf[k.val]) ∧
    (∀ k : Fin 4, s.peek (BitVec.ofNat 8 (0x4C + k.val)) = s.nbuf[k.val]) ∧
    (∀ k : Fin 9, s.peek (BitVec.ofNat 8 (0x50 + k.val)) = s.dbuf[k.val])

/-- 00_scope R12, 41_parser R105, R106, 10_state R23: on its domain a parse succeeds, and PTIME leaves a valid time, PDT a valid
record. That a text with an empty group is out of the domain is the model's reading (log 9). -/
def Obligations.DomainTextParsesToAValidRecord : Prop :=
  ∀ s : State,
    (inDomain .ptime s = true → ∃ t, exec .ptime s = .next t ∧ t.ok = true ∧ validTime t.record = true) ∧
    (inDomain .pdt s = true → ∃ t, exec .pdt s = .next t ∧ t.ok = true ∧ validRecord t.record = true)
end

