-- ==== Sys2Proof/Laws/Bytes.lean ====
section
/-! SUPPORT. What the byte helpers compute, as plain arithmetic on the byte's value: one lemma each, by evaluation over the 256
bytes or by the laws of bit vectors, so that no later proof unfolds them. -/

namespace Sys2Proof.Machine

theorem hiNibble_eq : ∀ b : Byte, hiNibble b = b.toNat / 16 := by decide +kernel

theorem loNibble_eq : ∀ b : Byte, loNibble b = b.toNat % 16 := by decide +kernel

theorem dec_eq (b : Byte) : dec b = 10 * (b.toNat / 16) + b.toNat % 16 := by
  rw [dec, hiNibble_eq, loNibble_eq]

theorem dec_le (b : Byte) : dec b ≤ 165 := by
  have := b.isLt
  rw [dec_eq]
  omega

/-- The two nibbles of `Bcd(n)`: the tens reduced to four bits, and the units. -/
theorem bcd_toNat (n : Nat) : (bcd n).toNat = n / 10 % 16 * 16 + n % 10 := by
  have h : ∀ a : Fin 16, ∀ u : Fin 10,
      ((BitVec.ofNat 8 a.val <<< 4) ||| BitVec.ofNat 8 u.val).toNat = a.val * 16 + u.val := by decide
  exact h ⟨n / 10 % 16, Nat.mod_lt _ (by decide)⟩ ⟨n % 10, Nat.mod_lt _ (by decide)⟩

theorem ascHi_toNat (b : Byte) : (ascHi b).toNat = 0x30 + b.toNat / 16 := by
  have := b.isLt
  rw [ascHi, hiNibble_eq, BitVec.toNat_ofNat]
  omega

theorem ascLo_toNat (b : Byte) : (ascLo b).toNat = 0x30 + b.toNat % 16 := by
  rw [ascLo, loNibble_eq, BitVec.toNat_ofNat]
  omega

/-- The hour bits are the byte masked by its mode. -/
theorem hourBits_eq : ∀ b : Byte, hourBits b = b &&& (if b.getLsbD 6 then 0x1F else 0x3F) := by decide +kernel

theorem inject_toNat : ∀ (b : Byte) (p : Bool), (inject b p).toNat = b.toNat % 128 + (if p then 128 else 0) := by
  decide +kernel

/-- The 12-hour byte of an hour 0 to 45, the largest a byte holds. -/
theorem encodeHour12_toNat : ∀ h : Fin 46, (encodeHour12 h.val).toNat =
    0x40 + (if 12 ≤ h.val then 0x20 else 0) + ((h.val + 11) % 12 + 1) / 10 * 16 + ((h.val + 11) % 12 + 1) % 10 := by
  decide +kernel

/-! ### The status flags -/

/-- A flag written reads back, and every other bit of the byte stays. -/
theorem getLsbD_writeBit : ∀ (b : Byte) (k j : Fin 8) (v : Bool),
    (writeBit b k.val v).getLsbD j.val = if j = k then v else b.getLsbD j.val := by decide +kernel

/-- Writing OK leaves WRAP, ILL and the reserved bits. -/
theorem statusWithOk_bits : ∀ (st : Byte) (v : Bool),
    (statusWithOk st v).getLsbD 0 = v ∧ (statusWithOk st v).getLsbD 1 = st.getLsbD 1 ∧
    (statusWithOk st v).getLsbD 2 = st.getLsbD 2 ∧
    (statusWithOk st v).extractLsb' 3 5 = st.extractLsb' 3 5 := by decide +kernel

/-- Writing WRAP leaves OK, ILL and the reserved bits. -/
theorem statusWithWrap_bits : ∀ (st : Byte) (v : Bool),
    (statusWithWrap st v).getLsbD 0 = st.getLsbD 0 ∧ (statusWithWrap st v).getLsbD 1 = v ∧
    (statusWithWrap st v).getLsbD 2 = st.getLsbD 2 ∧
    (statusWithWrap st v).extractLsb' 3 5 = st.extractLsb' 3 5 := by decide +kernel

/-- Setting ILL leaves OK, WRAP and the reserved bits. -/
theorem statusWithIll_bits : ∀ st : Byte,
    (statusWithIll st).getLsbD 0 = st.getLsbD 0 ∧ (statusWithIll st).getLsbD 1 = st.getLsbD 1 ∧
    (statusWithIll st).getLsbD 2 = true ∧
    (statusWithIll st).extractLsb' 3 5 = st.extractLsb' 3 5 := by decide +kernel

end Sys2Proof.Machine
end

