-- ==== Sys2Proof/Laws/State.lean ====
section
/-! SUPPORT. Reading a register after a register was written, and the fields of the state after each shared update. -/

namespace Sys2Proof.Machine

/-! ### The bytes of a 32-bit register -/

theorem wordByte_wordOfBytes (b0 b1 b2 b3 : Byte) :
    wordByte (wordOfBytes b0 b1 b2 b3) 0 = b0 ∧ wordByte (wordOfBytes b0 b1 b2 b3) 1 = b1 ∧
    wordByte (wordOfBytes b0 b1 b2 b3) 2 = b2 ∧ wordByte (wordOfBytes b0 b1 b2 b3) 3 = b3 := by
  refine ⟨?_, ?_, ?_, ?_⟩ <;>
  · apply BitVec.eq_of_getLsbD_eq
    intro i hi
    simp only [wordByte, wordOfBytes, BitVec.getLsbD_extractLsb', BitVec.getLsbD_append, hi]
    simp
    intros
    interval_cases i <;> simp_all

/-- A 32-bit register with one byte written reads that byte there and its old bytes elsewhere. -/
theorem wordByte_setWordByte (w : Word32) (k j : Fin 4) (v : Byte) :
    wordByte (setWordByte w k v) j = if j = k then v else wordByte w j := by
  have h := wordByte_wordOfBytes (if 0 = k then v else wordByte w 0) (if 1 = k then v else wordByte w 1)
    (if 2 = k then v else wordByte w 2) (if 3 = k then v else wordByte w 3)
  obtain ⟨h0, h1, h2, h3⟩ := h
  unfold setWordByte
  fin_cases j
  · exact h0
  · exact h1
  · exact h2
  · exact h3

/-! ### The record's slots -/

@[simp] theorem TimeRecord.get_set_same (r : TimeRecord) (slot : Slot) (v : Byte) : (r.set slot v).get slot = v := by
  cases slot <;> rfl

theorem TimeRecord.get_set_other {a b : Slot} (r : TimeRecord) (v : Byte) (h : b ≠ a) :
    (r.set a v).get b = r.get b := by
  cases a <;> cases b <;> first | rfl | exact absurd rfl h

/-! ### A register written -/

@[simp] theorem State.get_set_same (s : State) (r : Reg) (v : Byte) : (s.set r v).get r = v := by
  cases r <;>
    simp [State.set, State.get, wordByte_setWordByte, Vector.get_eq_getElem]

theorem State.get_set_other {r r' : Reg} (s : State) (v : Byte) (h : r' ≠ r) : (s.set r v).get r' = s.get r' := by
  cases r <;> cases r' <;>
    simp_all [State.set, State.get, wordByte_setWordByte, Vector.get_eq_getElem, TimeRecord.get_set_other,
      Fin.val_inj, eq_comm]

@[simp] theorem State.set_pending (s : State) (r : Reg) (v : Byte) : (s.set r v).pending = s.pending := by
  cases r <;> rfl

@[simp] theorem State.set_replies (s : State) (r : Reg) (v : Byte) : (s.set r v).replies = s.replies := by
  cases r <;> rfl

/-! ### The fields after an access is taken off the host's list -/

@[simp] theorem withPending_record (s : State) (rest : List HostAction) : (s.withPending rest).record = s.record := rfl
@[simp] theorem withPending_a0 (s : State) (rest : List HostAction) : (s.withPending rest).a0 = s.a0 := rfl
@[simp] theorem withPending_a1 (s : State) (rest : List HostAction) : (s.withPending rest).a1 = s.a1 := rfl
@[simp] theorem withPending_a2 (s : State) (rest : List HostAction) : (s.withPending rest).a2 = s.a2 := rfl
@[simp] theorem withPending_res0 (s : State) (rest : List HostAction) : (s.withPending rest).res0 = s.res0 := rfl
@[simp] theorem withPending_res1 (s : State) (rest : List HostAction) : (s.withPending rest).res1 = s.res1 := rfl
@[simp] theorem withPending_delta (s : State) (rest : List HostAction) : (s.withPending rest).delta = s.delta := rfl
@[simp] theorem withPending_secs (s : State) (rest : List HostAction) : (s.withPending rest).secs = s.secs := rfl
@[simp] theorem withPending_sel (s : State) (rest : List HostAction) : (s.withPending rest).sel = s.sel := rfl
@[simp] theorem withPending_alm (s : State) (rest : List HostAction) : (s.withPending rest).alm = s.alm := rfl
@[simp] theorem withPending_alen (s : State) (rest : List HostAction) : (s.withPending rest).alen = s.alen := rfl
@[simp] theorem withPending_count (s : State) (rest : List HostAction) : (s.withPending rest).count = s.count := rfl
@[simp] theorem withPending_status (s : State) (rest : List HostAction) : (s.withPending rest).status = s.status := rfl
@[simp] theorem withPending_cmd (s : State) (rest : List HostAction) : (s.withPending rest).cmd = s.cmd := rfl
@[simp] theorem withPending_ibuf (s : State) (rest : List HostAction) : (s.withPending rest).ibuf = s.ibuf := rfl
@[simp] theorem withPending_tbuf (s : State) (rest : List HostAction) : (s.withPending rest).tbuf = s.tbuf := rfl
@[simp] theorem withPending_dbuf (s : State) (rest : List HostAction) : (s.withPending rest).dbuf = s.dbuf := rfl
@[simp] theorem withPending_nbuf (s : State) (rest : List HostAction) : (s.withPending rest).nbuf = s.nbuf := rfl
@[simp] theorem withPending_pending (s : State) (rest : List HostAction) : (s.withPending rest).pending = rest := rfl
@[simp] theorem withPending_replies (s : State) (rest : List HostAction) : (s.withPending rest).replies = s.replies := rfl

/-! ### The fields after `CMD` is stored -/

@[simp] theorem withCmd_record (s : State) (c : Byte) : (s.withCmd c).record = s.record := rfl
@[simp] theorem withCmd_a0 (s : State) (c : Byte) : (s.withCmd c).a0 = s.a0 := rfl
@[simp] theorem withCmd_a1 (s : State) (c : Byte) : (s.withCmd c).a1 = s.a1 := rfl
@[simp] theorem withCmd_a2 (s : State) (c : Byte) : (s.withCmd c).a2 = s.a2 := rfl
@[simp] theorem withCmd_res0 (s : State) (c : Byte) : (s.withCmd c).res0 = s.res0 := rfl
@[simp] theorem withCmd_res1 (s : State) (c : Byte) : (s.withCmd c).res1 = s.res1 := rfl
@[simp] theorem withCmd_delta (s : State) (c : Byte) : (s.withCmd c).delta = s.delta := rfl
@[simp] theorem withCmd_secs (s : State) (c : Byte) : (s.withCmd c).secs = s.secs := rfl
@[simp] theorem withCmd_sel (s : State) (c : Byte) : (s.withCmd c).sel = s.sel := rfl
@[simp] theorem withCmd_alm (s : State) (c : Byte) : (s.withCmd c).alm = s.alm := rfl
@[simp] theorem withCmd_alen (s : State) (c : Byte) : (s.withCmd c).alen = s.alen := rfl
@[simp] theorem withCmd_count (s : State) (c : Byte) : (s.withCmd c).count = s.count := rfl
@[simp] theorem withCmd_status (s : State) (c : Byte) : (s.withCmd c).status = s.status := rfl
@[simp] theorem withCmd_cmd (s : State) (c : Byte) : (s.withCmd c).cmd = c := rfl
@[simp] theorem withCmd_ibuf (s : State) (c : Byte) : (s.withCmd c).ibuf = s.ibuf := rfl
@[simp] theorem withCmd_tbuf (s : State) (c : Byte) : (s.withCmd c).tbuf = s.tbuf := rfl
@[simp] theorem withCmd_dbuf (s : State) (c : Byte) : (s.withCmd c).dbuf = s.dbuf := rfl
@[simp] theorem withCmd_nbuf (s : State) (c : Byte) : (s.withCmd c).nbuf = s.nbuf := rfl
@[simp] theorem withCmd_pending (s : State) (c : Byte) : (s.withCmd c).pending = s.pending := rfl
@[simp] theorem withCmd_replies (s : State) (c : Byte) : (s.withCmd c).replies = s.replies := rfl

/-! ### The fields after an illegal command -/

@[simp] theorem illegalCommand_record (s : State) : (illegalCommand s).record = s.record := rfl
@[simp] theorem illegalCommand_a0 (s : State) : (illegalCommand s).a0 = s.a0 := rfl
@[simp] theorem illegalCommand_a1 (s : State) : (illegalCommand s).a1 = s.a1 := rfl
@[simp] theorem illegalCommand_a2 (s : State) : (illegalCommand s).a2 = s.a2 := rfl
@[simp] theorem illegalCommand_res0 (s : State) : (illegalCommand s).res0 = s.res0 := rfl
@[simp] theorem illegalCommand_res1 (s : State) : (illegalCommand s).res1 = s.res1 := rfl
@[simp] theorem illegalCommand_delta (s : State) : (illegalCommand s).delta = s.delta := rfl
@[simp] theorem illegalCommand_secs (s : State) : (illegalCommand s).secs = s.secs := rfl
@[simp] theorem illegalCommand_sel (s : State) : (illegalCommand s).sel = s.sel := rfl
@[simp] theorem illegalCommand_alm (s : State) : (illegalCommand s).alm = s.alm := rfl
@[simp] theorem illegalCommand_alen (s : State) : (illegalCommand s).alen = s.alen := rfl
@[simp] theorem illegalCommand_count (s : State) : (illegalCommand s).count = s.count := rfl
@[simp] theorem illegalCommand_status (s : State) : (illegalCommand s).status = statusWithIll s.status := rfl
@[simp] theorem illegalCommand_cmd (s : State) : (illegalCommand s).cmd = s.cmd := rfl
@[simp] theorem illegalCommand_ibuf (s : State) : (illegalCommand s).ibuf = s.ibuf := rfl
@[simp] theorem illegalCommand_tbuf (s : State) : (illegalCommand s).tbuf = s.tbuf := rfl
@[simp] theorem illegalCommand_dbuf (s : State) : (illegalCommand s).dbuf = s.dbuf := rfl
@[simp] theorem illegalCommand_nbuf (s : State) : (illegalCommand s).nbuf = s.nbuf := rfl
@[simp] theorem illegalCommand_pending (s : State) : (illegalCommand s).pending = s.pending := rfl
@[simp] theorem illegalCommand_replies (s : State) : (illegalCommand s).replies = s.replies := rfl

/-! ### The fields after a host read -/

@[simp] theorem readByHost_record (o : Byte) (s : State) : (readByHost o s).record = s.record := rfl
@[simp] theorem readByHost_a0 (o : Byte) (s : State) : (readByHost o s).a0 = s.a0 := rfl
@[simp] theorem readByHost_a1 (o : Byte) (s : State) : (readByHost o s).a1 = s.a1 := rfl
@[simp] theorem readByHost_a2 (o : Byte) (s : State) : (readByHost o s).a2 = s.a2 := rfl
@[simp] theorem readByHost_res0 (o : Byte) (s : State) : (readByHost o s).res0 = s.res0 := rfl
@[simp] theorem readByHost_res1 (o : Byte) (s : State) : (readByHost o s).res1 = s.res1 := rfl
@[simp] theorem readByHost_delta (o : Byte) (s : State) : (readByHost o s).delta = s.delta := rfl
@[simp] theorem readByHost_secs (o : Byte) (s : State) : (readByHost o s).secs = s.secs := rfl
@[simp] theorem readByHost_sel (o : Byte) (s : State) : (readByHost o s).sel = s.sel := rfl
@[simp] theorem readByHost_alm (o : Byte) (s : State) : (readByHost o s).alm = s.alm := rfl
@[simp] theorem readByHost_alen (o : Byte) (s : State) : (readByHost o s).alen = s.alen := rfl
@[simp] theorem readByHost_count (o : Byte) (s : State) : (readByHost o s).count = s.count := rfl
@[simp] theorem readByHost_status (o : Byte) (s : State) : (readByHost o s).status = s.status := rfl
@[simp] theorem readByHost_cmd (o : Byte) (s : State) : (readByHost o s).cmd = s.cmd := rfl
@[simp] theorem readByHost_ibuf (o : Byte) (s : State) : (readByHost o s).ibuf = s.ibuf := rfl
@[simp] theorem readByHost_tbuf (o : Byte) (s : State) : (readByHost o s).tbuf = s.tbuf := rfl
@[simp] theorem readByHost_dbuf (o : Byte) (s : State) : (readByHost o s).dbuf = s.dbuf := rfl
@[simp] theorem readByHost_nbuf (o : Byte) (s : State) : (readByHost o s).nbuf = s.nbuf := rfl
@[simp] theorem readByHost_pending (o : Byte) (s : State) : (readByHost o s).pending = s.pending := rfl
@[simp] theorem readByHost_replies (o : Byte) (s : State) : (readByHost o s).replies = s.replies ++ [s.peek o] := rfl

/-! ### The fields after a parse is stored -/

@[simp] theorem storeScan_record (s : State) (st : Scan) (r : TimeRecord) (n : Nat) : (storeScan s st r n).record = r := rfl
@[simp] theorem storeScan_a0 (s : State) (st : Scan) (r : TimeRecord) (n : Nat) : (storeScan s st r n).a0 = s.a0 := rfl
@[simp] theorem storeScan_a1 (s : State) (st : Scan) (r : TimeRecord) (n : Nat) : (storeScan s st r n).a1 = s.a1 := rfl
@[simp] theorem storeScan_a2 (s : State) (st : Scan) (r : TimeRecord) (n : Nat) : (storeScan s st r n).a2 = s.a2 := rfl
@[simp] theorem storeScan_res0 (s : State) (st : Scan) (r : TimeRecord) (n : Nat) : (storeScan s st r n).res0 = s.res0 := rfl
@[simp] theorem storeScan_res1 (s : State) (st : Scan) (r : TimeRecord) (n : Nat) : (storeScan s st r n).res1 = s.res1 := rfl
@[simp] theorem storeScan_delta (s : State) (st : Scan) (r : TimeRecord) (n : Nat) : (storeScan s st r n).delta = s.delta := rfl
@[simp] theorem storeScan_secs (s : State) (st : Scan) (r : TimeRecord) (n : Nat) : (storeScan s st r n).secs = s.secs := rfl
@[simp] theorem storeScan_sel (s : State) (st : Scan) (r : TimeRecord) (n : Nat) : (storeScan s st r n).sel = s.sel := rfl
@[simp] theorem storeScan_alm (s : State) (st : Scan) (r : TimeRecord) (n : Nat) : (storeScan s st r n).alm = s.alm := rfl
@[simp] theorem storeScan_alen (s : State) (st : Scan) (r : TimeRecord) (n : Nat) : (storeScan s st r n).alen = s.alen := rfl
@[simp] theorem storeScan_count (s : State) (st : Scan) (r : TimeRecord) (n : Nat) : (storeScan s st r n).count = BitVec.ofNat 8 st.cnt := rfl
@[simp] theorem storeScan_status (s : State) (st : Scan) (r : TimeRecord) (n : Nat) : (storeScan s st r n).status = statusWithOk s.status (st.cnt == n) := rfl
@[simp] theorem storeScan_cmd (s : State) (st : Scan) (r : TimeRecord) (n : Nat) : (storeScan s st r n).cmd = s.cmd := rfl
@[simp] theorem storeScan_ibuf (s : State) (st : Scan) (r : TimeRecord) (n : Nat) : (storeScan s st r n).ibuf = s.ibuf := rfl
@[simp] theorem storeScan_tbuf (s : State) (st : Scan) (r : TimeRecord) (n : Nat) : (storeScan s st r n).tbuf = s.tbuf := rfl
@[simp] theorem storeScan_dbuf (s : State) (st : Scan) (r : TimeRecord) (n : Nat) : (storeScan s st r n).dbuf = s.dbuf := rfl
@[simp] theorem storeScan_nbuf (s : State) (st : Scan) (r : TimeRecord) (n : Nat) : (storeScan s st r n).nbuf = s.nbuf := rfl
@[simp] theorem storeScan_pending (s : State) (st : Scan) (r : TimeRecord) (n : Nat) : (storeScan s st r n).pending = s.pending := rfl
@[simp] theorem storeScan_replies (s : State) (st : Scan) (r : TimeRecord) (n : Nat) : (storeScan s st r n).replies = s.replies := rfl

/-! ### The reset input -/

@[simp] theorem resetBlock_pending (s : State) : (resetBlock s).pending = s.pending := rfl
@[simp] theorem resetBlock_replies (s : State) : (resetBlock s).replies = s.replies := rfl

/-- Every other field is that of the reset state. -/
theorem resetBlock_get (s : State) (r : Reg) : (resetBlock s).get r = State.reset.get r := by cases r <;> rfl

/-! ### Registers after the shared updates -/

theorem illegalCommand_get {r : Reg} (s : State) (h : r ≠ .status) : (illegalCommand s).get r = s.get r := by
  cases r <;> first | rfl | exact absurd rfl h

@[simp] theorem withPending_get (s : State) (rest : List HostAction) (r : Reg) :
    (s.withPending rest).get r = s.get r := by cases r <;> rfl

theorem withCmd_get {r : Reg} (s : State) (c : Byte) (h : r ≠ .cmd) : (s.withCmd c).get r = s.get r := by
  cases r <;> first | rfl | exact absurd rfl h

@[simp] theorem readByHost_get (o : Byte) (s : State) (r : Reg) : (readByHost o s).get r = s.get r := by cases r <;> rfl

end Sys2Proof.Machine
end

