-- ==== Sys2Proof/Laws/Exec.lean ====
section
/-! SUPPORT. What each command answers, one equation a command, so that no proof unfolds `exec` or a meaning. -/

namespace Sys2Proof.Machine

@[simp] theorem exec_d2b (s : State) : exec .d2b s = .next { s with res0 := bcd s.a0.toNat } := rfl

@[simp] theorem exec_b2d (s : State) : exec .b2d s = .next { s with res0 := BitVec.ofNat 8 (dec s.a0) } := rfl

@[simp] theorem exec_b2a (s : State) : exec .b2a s = .next { s with res0 := ascHi s.a0, res1 := ascLo s.a0 } := rfl

@[simp] theorem exec_ptime (s : State) :
    exec .ptime s = .next (storeScan s (scan s timeMap) (scan s timeMap).record 3) := rfl

@[simp] theorem exec_pdt (s : State) :
    exec .pdt s = .next (storeScan s (scan s dateTimeMap)
      (if (scan s dateTimeMap).cnt = 6 then withDayOfWeek (scan s dateTimeMap).record
       else (scan s dateTimeMap).record) 6) := rfl

@[simp] theorem exec_setmode (w : Bool) (s : State) :
    exec (.setmode w) s = .next { s with record := { s.record with hours := convertMode w s.record.hours } } := rfl

@[simp] theorem exec_dow (s : State) :
    exec .dow s = .next { s with res0 := BitVec.ofNat 8 (dowF s.a0.toNat s.a1.toNat s.a2.toNat) } := rfl

@[simp] theorem exec_tosec (s : State) :
    exec .tosec s = .next { s with secs := BitVec.ofNat 32 (secondsOf s.record) } := rfl

@[simp] theorem exec_adv (s : State) :
    exec .adv s = .next { s with
      record := withTimeOfDay s.record (is12 s.record.hours) ((secondsOf s.record + s.delta.toNat) % Config.secondsPerDay)
      status := statusWithWrap s.status
        (decide (secondsOf s.record + s.delta.toNat ≥ Config.secondsPerDay)) } := rfl

@[simp] theorem exec_almenc (s : State) :
    exec .almenc s = .next { s with
      alm := alarmImage s.record s.sel, alen := if selChannel2 s.sel then 3 else 4 } := rfl

@[simp] theorem exec_almdec1 (s : State) :
    exec (.almdec false) s = .next { s with
      record := { s.record with seconds := s.alm[0], minutes := s.alm[1], hours := s.alm[2] }, alen := 3 } := rfl

@[simp] theorem exec_almdec2 (s : State) :
    exec (.almdec true) s = .next { s with
      record := { s.record with minutes := s.alm[0], hours := s.alm[1] }, alen := 2 } := rfl

@[simp] theorem exec_fmtt (s : State) : exec .fmtt s = .next { s with tbuf := timeString s.record } := rfl

@[simp] theorem exec_fmtd (s : State) : exec .fmtd s = .next { s with dbuf := dateString s.record } := rfl

@[simp] theorem exec_fmtn (s : State) : exec .fmtn s = .next { s with nbuf := dayName s.record.dayOfWeek } := rfl

/-- The fields `exec` never touches: the operand registers, `CMD`, the input buffer and the host's side. -/
theorem exec_keeps {i : Instr} {s t : State} (h : exec i s = .next t) :
    t.a0 = s.a0 ∧ t.a1 = s.a1 ∧ t.a2 = s.a2 ∧ t.delta = s.delta ∧ t.sel = s.sel ∧ t.cmd = s.cmd ∧ t.ibuf = s.ibuf ∧
    t.pending = s.pending ∧ t.replies = s.replies := by
  cases i with
  | almdec c => cases c <;> cases h <;> exact ⟨rfl, rfl, rfl, rfl, rfl, rfl, rfl, rfl, rfl⟩
  | _ => cases h; exact ⟨rfl, rfl, rfl, rfl, rfl, rfl, rfl, rfl, rfl⟩

/-- What `exec` may do to `STATUS`: PTIME and PDT write OK, ADV writes WRAP, and no other command writes it (R32). -/
theorem exec_status {i : Instr} {s t : State} (h : exec i s = .next t) :
    (∃ v, (i = .ptime ∨ i = .pdt) ∧ t.status = statusWithOk s.status v) ∨
    (∃ v, i = .adv ∧ t.status = statusWithWrap s.status v) ∨ t.status = s.status := by
  cases i with
  | ptime => cases h; exact .inl ⟨_, .inl rfl, rfl⟩
  | pdt => cases h; exact .inl ⟨_, .inr rfl, rfl⟩
  | adv => cases h; exact .inr (.inl ⟨_, rfl, rfl⟩)
  | almdec c => cases c <;> cases h <;> exact .inr (.inr rfl)
  | _ => cases h; exact .inr (.inr rfl)

end Sys2Proof.Machine
end

