-- ==== Sys2Proof/Laws/Parser.lean ====
section
/-! SUPPORT. What the scanner of 41_parser R101 does with a group, with a delimiter, and at the end of the input. -/

namespace Sys2Proof.Machine

/-- A scanner about to read a group (R104: after a delimiter the accumulator and the digit counter are zero). -/
def Scan.Fresh (st : Scan) : Prop := st.acc = 0x00 ∧ st.nd = 0

theorem startScan_fresh (r : TimeRecord) (map : List Slot) : (startScan r map).Fresh := ⟨rfl, rfl⟩

/-- A delimiter is no digit. -/
theorem isDigit_of_isDelimiter {c : Byte} (h : isDelimiter c = true) : isDigit c = false := by
  unfold isDelimiter at h
  cases hd : isDigit c with
  | false => rfl
  | true => simp [hd] at h

theorem ne_nul_of_isDelimiter {c : Byte} (h : isDelimiter c = true) : c ≠ 0x00 := by
  intro e
  subst e
  revert h
  decide

/-- Every byte is a digit, a NUL or a delimiter (R100). -/
theorem char_cases (c : Byte) : isDigit c = true ∨ c = 0x00 ∨ isDelimiter c = true := by
  revert c
  decide +kernel

/-- The digits of a group leave its committed byte in the accumulator (R102). -/
theorem scanLoop_group {st : Scan} (hst : st.Fresh) {g : List Byte} (hg : IsGroup g) (rest : List Byte) :
    scanLoop (g ++ rest) st = scanLoop rest { st with acc := groupByte g, nd := g.length } := by
  obtain ⟨hacc, hnd⟩ := hst
  obtain ⟨hlen, hdig⟩ := hg
  cases st with | mk record left acc nd cnt =>
  simp only at hacc hnd
  subst hacc hnd
  match g with
  | [] => rfl
  | [a] =>
    have ha : isDigit a = true := hdig a (by simp)
    simp [scanLoop, ha, Config.maxGroupDigits, scanDigit, groupByte]
  | [a, b] =>
    have ha : isDigit a = true := hdig a (by simp)
    have hb : isDigit b = true := hdig b (by simp)
    simp [scanLoop, ha, hb, Config.maxGroupDigits, scanDigit, groupByte]
  | _ :: _ :: _ :: _ => simp at hlen

/-- A third digit stops the scan (R103). -/
theorem scanLoop_thirdDigit {st : Scan} (hst : st.Fresh) {a b c : Byte} (ha : isDigit a = true) (hb : isDigit b = true)
    (hc : isDigit c = true) (rest : List Byte) :
    scanLoop (a :: b :: c :: rest) st = { st with acc := groupByte [a, b], nd := 2 } := by
  obtain ⟨hacc, hnd⟩ := hst
  cases st with | mk record left acc nd cnt =>
  simp only at hacc hnd
  subst hacc hnd
  simp [scanLoop, ha, hb, hc, Config.maxGroupDigits, scanDigit, groupByte]

/-- A delimiter commits, marks the hours byte if it completes the last group, and ends the scan exactly then (R104, R109). -/
theorem scanLoop_delimiter (st : Scan) {d : Byte} (hd : isDelimiter d = true) (rest : List Byte) :
    scanLoop (d :: rest) st =
      if (scanMarker (scanCommit st) d).left = [] then scanMarker (scanCommit st) d
      else scanLoop rest (scanMarker (scanCommit st) d) := by
  have hne := ne_nul_of_isDelimiter hd
  simp only [scanLoop, isDigit_of_isDelimiter hd, if_neg hne]
  rfl

/-- A group and its delimiter, with a later slot still wanted: the group's byte goes to the next slot (R102, R104). -/
theorem scanLoop_groupDelimiter {record : TimeRecord} {slot next : Slot} {left : List Slot} {cnt : Nat} {g : List Byte}
    (hg : IsGroup g) {d : Byte} (hd : isDelimiter d = true) (rest : List Byte) :
    scanLoop (g ++ d :: rest) ⟨record, slot :: next :: left, 0x00, 0, cnt⟩ =
      scanLoop rest ⟨record.set slot (groupByte g), next :: left, 0x00, 0, cnt + 1⟩ := by
  rw [scanLoop_group ⟨rfl, rfl⟩ hg, scanLoop_delimiter _ hd]
  simp [scanCommit, scanMarker]

/-- At a NUL the scan ends; only a group with a digit is committed (R107). -/
theorem scanLoop_nul (st : Scan) (rest : List Byte) : scanLoop (0x00 :: rest) st = scanNul st := by
  simp [scanLoop, isDigit]

/-- At the end of the buffer the scan ends as at a NUL (R108). -/
theorem scanLoop_nil (st : Scan) : scanLoop [] st = scanNul st := rfl

/-- The count and the slots left always add up to what they started as. -/
theorem scanLoop_count (text : List Byte) (st : Scan) (hleft : st.left ≠ []) :
    (scanLoop text st).cnt + (scanLoop text st).left.length = st.cnt + st.left.length := by
  have hcommit : ∀ u : Scan, (scanCommit u).cnt + (scanCommit u).left.length = u.cnt + u.left.length := by
    intro u
    unfold scanCommit
    split
    · rfl
    · rename_i slot rest e
      simp only [e, List.length_cons]
      omega
  have hmark : ∀ (u : Scan) (c : Byte), (scanMarker u c).cnt = u.cnt ∧ (scanMarker u c).left = u.left := by
    intro u c
    unfold scanMarker
    split <;> exact ⟨rfl, rfl⟩
  have hnul : ∀ u : Scan, (scanNul u).cnt + (scanNul u).left.length = u.cnt + u.left.length := by
    intro u
    unfold scanNul
    split
    · exact hcommit u
    · rfl
  induction text generalizing st with
  | nil => exact hnul st
  | cons c rest ih =>
    unfold scanLoop
    split
    · split
      · rfl
      · exact ih (scanDigit st c) hleft
    · split
      · exact hnul st
      · dsimp only
        have h1 := hcommit st
        obtain ⟨hc, hl⟩ := hmark (scanCommit st) c
        split
        · rw [hc, hl, h1]
        · rw [ih _ ‹_›, hc, hl, h1]

/-! ### Whole texts -/

/-- The record with groups committed to slots, in order, as far as both go. -/
def commitAll : TimeRecord → List Slot → List (List Byte) → TimeRecord
  | r, slot :: left, g :: groups => commitAll (r.set slot (groupByte g)) left groups
  | r, _, _ => r

/-- Groups with their delimiters, fewer than the slots wanted, are committed one to a slot (R102, R104). -/
theorem scanLoop_body {body : List (List Byte × Byte)} (hb : IsBody body) (rest : List Byte) (r : TimeRecord)
    (left : List Slot) (cnt : Nat) (h : body.length < left.length) :
    scanLoop (joinGroups body ++ rest) ⟨r, left, 0x00, 0, cnt⟩ =
      scanLoop rest ⟨commitAll r left (body.map Prod.fst), left.drop body.length, 0x00, 0, cnt + body.length⟩ := by
  induction body generalizing r left cnt with
  | nil => cases left <;> simp [joinGroups, commitAll]
  | cons p body ih =>
    match left, h with
    | [_], h => simp at h
    | _ :: _ :: left, h =>
      have hp := hb p (by simp)
      have e : joinGroups (p :: body) ++ rest = p.1 ++ p.2 :: (joinGroups body ++ rest) := by simp [joinGroups]
      rw [e, scanLoop_groupDelimiter hp.1 hp.2, ih (fun q hq => hb q (by simp [hq])) _ _ _ (by simpa using h)]
      simp [commitAll, Nat.add_assoc, Nat.add_comm 1]

/-- The last group and its terminator fill the last slot, and the terminator's marker goes into the hours byte (R107, R109). -/
theorem scanLoop_lastGroup (r : TimeRecord) (slot : Slot) (cnt : Nat) {g tail : List Byte} (hg : IsGroup g)
    (ht : Terminated g tail) :
    (scanLoop (g ++ tail) ⟨r, [slot], 0x00, 0, cnt⟩).left = [] ∧
    (scanLoop (g ++ tail) ⟨r, [slot], 0x00, 0, cnt⟩).cnt = cnt + 1 ∧
    (scanLoop (g ++ tail) ⟨r, [slot], 0x00, 0, cnt⟩).record =
      { r.set slot (groupByte g) with hours := (r.set slot (groupByte g)).hours ||| markerBits tail } := by
  have hp : ∀ b : Byte, b ||| 0x40 ||| 0x20 = b ||| 0x60 := by decide +kernel
  rw [scanLoop_group ⟨rfl, rfl⟩ hg]
  rcases ht with ⟨d, rest, rfl, hd⟩ | ⟨hne, htail⟩
  · rw [scanLoop_delimiter _ hd]
    by_cases hA : d = charA
    · subst hA
      simp [scanCommit, scanMarker, markerBits, charA, charP]
    · by_cases hP : d = charP
      · subst hP
        simpa [scanCommit, scanMarker, markerBits, charA, charP] using hp _
      · simp [scanCommit, scanMarker, markerBits, hA, hP]
  · have hlen : g.length > 0 := List.length_pos_iff.2 hne
    rcases htail with rfl | ⟨rest, rfl⟩
    · simp [scanLoop_nil, scanNul, hlen, scanCommit, markerBits]
    · rw [scanLoop_nul]
      simp [scanNul, hlen, scanCommit, markerBits, charA, charP]

/-- A slot that no committed group goes to keeps its byte (R110). -/
theorem commitAll_get_other (map : List Slot) (groups : List (List Byte)) (r : TimeRecord) {slot : Slot}
    (h : slot ∉ map.take groups.length) : (commitAll r map groups).get slot = r.get slot := by
  induction map generalizing groups r with
  | nil => cases groups <;> rfl
  | cons first map ih =>
    cases groups with
    | nil => rfl
    | cons g groups =>
      simp only [List.length_cons, List.take_succ_cons, List.mem_cons, not_or] at h
      rw [commitAll, ih _ _ h.2, TimeRecord.get_set_other _ _ h.1]

/-- The `k`-th committed group's byte is in the `k`-th slot (R105, R106). -/
theorem commitAll_get_slot {map : List Slot} (hmap : map.Nodup) {groups : List (List Byte)} (r : TimeRecord) {k : Nat}
    {slot : Slot} {g : List Byte} (hk : map[k]? = some slot) (hg : groups[k]? = some g) :
    (commitAll r map groups).get slot = groupByte g := by
  induction map generalizing groups r k with
  | nil => simp at hk
  | cons first map ih =>
    obtain ⟨hfirst, hrest⟩ := List.nodup_cons.1 hmap
    match groups, k, hk, hg with
    | g0 :: groups, 0, hk, hg =>
      simp only [List.getElem?_cons_zero, Option.some.injEq] at hk hg
      subst hk hg
      rw [commitAll, commitAll_get_other _ _ _ fun h => hfirst (List.mem_of_mem_take h), TimeRecord.get_set_same]
    | g0 :: groups, k + 1, hk, hg => exact ih hrest _ hk hg

/-- One more group goes to the first slot not yet filled (R107). -/
theorem commitAll_append {map : List Slot} {groups : List (List Byte)} (r : TimeRecord) (g : List Byte) {slot : Slot}
    {left : List Slot} (h : map.drop groups.length = slot :: left) :
    commitAll r map (groups ++ [g]) = (commitAll r map groups).set slot (groupByte g) := by
  induction map generalizing groups r with
  | nil => simp at h
  | cons first map ih =>
    cases groups with
    | nil =>
      simp only [List.length_nil, List.drop_zero, List.cons.injEq] at h
      simp [commitAll, h.1]
    | cons g0 groups => exact ih _ h

/-! ### Splitting a text -/

/-- What follows the digits of a text does not begin with one. -/
theorem dropWhile_isDigit_head {text : List Byte} {c : Byte} {rest : List Byte} (h : text.dropWhile isDigit = c :: rest) :
    isDigit c = false := by
  have := List.head_dropWhile_not (l := text) isDigit (by simp [h])
  simpa [h] using this

/-- A sized run of digits is a group with a digit in it. -/
theorem isGroup_takeWhile {text : List Byte} (h : groupSized (text.takeWhile isDigit) = true) :
    IsGroup (text.takeWhile isDigit) ∧ text.takeWhile isDigit ≠ [] := by
  simp only [groupSized, Bool.and_eq_true, decide_eq_true_eq] at h
  exact ⟨⟨h.2, fun _ hc => List.mem_takeWhile_imp hc⟩, List.length_pos_iff.1 h.1⟩

/-- After a group with a digit, whatever is no third digit ends the group (R112). -/
theorem terminated_of_not_digit {g tail : List Byte} (hg : g ≠ [])
    (h : ∀ c rest, tail = c :: rest → isDigit c = false) : Terminated g tail := by
  cases tail with
  | nil => exact .inr ⟨hg, .inl rfl⟩
  | cons c rest =>
    rcases char_cases c with hc | rfl | hc
    · simp [hc] at h
    · exact .inr ⟨hg, .inr ⟨rest, rfl⟩⟩
    · exact .inl ⟨c, rest, rfl, hc⟩

/-- A text that splits into as many sized groups as are wanted is those groups, their delimiters, and an end the parser accepts
(R112). -/
theorem splitText_spec {n : Nat} {text : List Byte} (hn : n ≠ 0) (hlen : (splitText n text).1.length = n)
    (hsized : (splitText n text).1.all groupSized = true) :
    ∃ body g, text = joinGroups body ++ g ++ (splitText n text).2 ∧ (splitText n text).1 = body.map Prod.fst ++ [g] ∧
      IsBody body ∧ IsGroup g ∧ g ≠ [] ∧ Terminated g (splitText n text).2 := by
  induction n generalizing text with
  | zero => exact absurd rfl hn
  | succ n ih =>
    have htext := List.takeWhile_append_dropWhile (p := isDigit) (l := text)
    have hhead := @dropWhile_isDigit_head text
    have hgroup := @isGroup_takeWhile text
    simp only [splitText] at hlen hsized ⊢
    generalize text.takeWhile isDigit = g at *
    generalize text.dropWhile isDigit = rest at *
    cases rest with
    | nil =>
      obtain ⟨hg, hne⟩ := hgroup (by simpa using hsized)
      exact ⟨[], g, by simpa [joinGroups] using htext.symm, rfl, by simp [IsBody], hg, hne, .inr ⟨hne, .inl rfl⟩⟩
    | cons d later =>
      by_cases hlast : n = 0 ∨ isDelimiter d = false
      · simp only [if_pos hlast] at hsized ⊢
        obtain ⟨hg, hne⟩ := hgroup (by simpa using hsized)
        exact ⟨[], g, by simpa [joinGroups] using htext.symm, rfl, by simp [IsBody], hg, hne,
          terminated_of_not_digit hne fun _ _ e => hhead e⟩
      · simp only [if_neg hlast] at hlen hsized ⊢
        simp only [List.length_cons, Nat.add_right_cancel_iff, List.all_cons, Bool.and_eq_true] at hlen hsized
        simp only [not_or, Bool.not_eq_false] at hlast
        obtain ⟨body, last, e, he, hbody, hg, hne, hterm⟩ := ih hlast.1 hlen hsized.2
        refine ⟨(g, d) :: body, last, ?_, by simp [he], ?_, hg, hne, hterm⟩
        · conv_lhs => rw [← htext, e]
          simp [joinGroups]
        · exact List.forall_mem_cons.2 ⟨⟨(hgroup hsized.1).1, hlast.2⟩, hbody⟩

end Sys2Proof.Machine
end

