-- ==== Sys2Proof/Laws/PerInstr.lean ====
section
/-! SUPPORT. What is said of every command as syntax: the opcode map has exactly one row for its byte, which builds it from the
byte's own immediate, and the byte's family field is below 7 (30_encoding R70, R74, R76). -/

namespace Sys2Proof.Laws.OpcodeRow

/-- One row matches the command's byte, that row builds the command, and bits 7:4 name one of the seven families. -/
def Statement (i : Instr) : Prop :=
  (opcodeMap.filter (rowMatches (encode i))).map (fun row => row.build (imm1 (encode i))) = [i] ∧
  ((encode i).extractLsb' 4 4).toNat < 7

theorem d2b : Statement .d2b := ⟨by decide, by decide⟩
theorem b2d : Statement .b2d := ⟨by decide, by decide⟩
theorem b2a : Statement .b2a := ⟨by decide, by decide⟩
theorem ptime : Statement .ptime := ⟨by decide, by decide⟩
theorem pdt : Statement .pdt := ⟨by decide, by decide⟩
theorem setmode (w : Bool) : Statement (.setmode w) := by cases w <;> exact ⟨by decide, by decide⟩
theorem dow : Statement .dow := ⟨by decide, by decide⟩
theorem tosec : Statement .tosec := ⟨by decide, by decide⟩
theorem adv : Statement .adv := ⟨by decide, by decide⟩
theorem almenc : Statement .almenc := ⟨by decide, by decide⟩
theorem almdec (c : Bool) : Statement (.almdec c) := by cases c <;> exact ⟨by decide, by decide⟩
theorem fmtt : Statement .fmtt := ⟨by decide, by decide⟩
theorem fmtd : Statement .fmtd := ⟨by decide, by decide⟩
theorem fmtn : Statement .fmtn := ⟨by decide, by decide⟩

end Sys2Proof.Laws.OpcodeRow
end

