-- ==== Sys2Proof/Laws/Step.lean ====
section
/-! SUPPORT. Everything one step can do, said once: an inversion lemma for each shared operation of the host port. -/

namespace Sys2Proof.Machine

/-- A byte that decodes is executed on the state with the byte stored; any other sets ILL. -/
theorem issueCommand_cases {c : Byte} {s t : State} (h : issueCommand c s = .next t) :
    (∃ i, decode c = .ok i ∧ exec i (s.withCmd c) = .next t) ∨
    (∃ e, decode c = .error e ∧ t = illegalCommand (s.withCmd c)) := by
  unfold issueCommand at h
  split at h
  · exact .inl ⟨_, ‹_›, h⟩
  · exact .inr ⟨_, ‹_›, by cases h; rfl⟩

/-- A write reaches a reserved offset, `CMD`, or another register. -/
theorem serveWrite_cases {o v : Byte} {s t : State} (h : serveWrite o v s = .next t) :
    (regAt o = none ∧ t = s) ∨ (regAt o = some .cmd ∧ issueCommand v s = .next t) ∨
    (∃ r, regAt o = some r ∧ r ≠ .cmd ∧ t = storeByHost r v s) := by
  unfold serveWrite at h
  split at h
  · exact .inl ⟨‹_›, by cases h; rfl⟩
  · exact .inr (.inl ⟨‹_›, h⟩)
  · rename_i r hne hr
    exact .inr (.inr ⟨r, hr, fun e => hne (e ▸ rfl), by cases h; rfl⟩)

/-- One step: idle, the reset input, a read, or a write. -/
theorem step_cases {s t : State} (h : step s = .next t) :
    (s.pending = [] ∧ t = s) ∨
    (∃ a rest, s.pending = a :: rest ∧
      ((a = .reset ∧ t = resetBlock (s.withPending rest)) ∨
       (∃ o, a = .read o ∧ t = readByHost o (s.withPending rest)) ∨
       (∃ o v, a = .write o v ∧ serveWrite o v (s.withPending rest) = .next t))) := by
  unfold step serveNext at h
  split at h
  · exact .inl ⟨‹_›, by cases h; rfl⟩
  · rename_i a rest hp
    refine .inr ⟨a, rest, hp, ?_⟩
    cases a with
    | write o v => exact .inr (.inr ⟨o, v, rfl, h⟩)
    | read o => exact .inr (.inl ⟨o, rfl, by cases h; rfl⟩)
    | reset => exact .inl ⟨rfl, by cases h; rfl⟩

/-- `CMD` stands at offset 0x1F and nowhere else. -/
theorem regAt_cmd : ∀ o : Byte, regAt o = some .cmd ↔ o = 0x1F := by decide +kernel

/-- What the host writes to a register it may not write is ignored. -/
theorem storeByHost_readOnly {r : Reg} (v : Byte) (s : State) (h : hostWritable r = false) : storeByHost r v s = s := by
  simp [storeByHost, h]

theorem storeByHost_writable {r : Reg} (v : Byte) (s : State) (h : hostWritable r = true) :
    storeByHost r v s = s.set r v := by
  simp [storeByHost, h]

end Sys2Proof.Machine
end

