-- ==== Sys2Proof/Tests/Slice0.lean ====
section
/-! SUPPORT. Tests of the model: expected values are the spec's own (opcode map R74, worked examples and vectors of
95_test_vectors, corner cases of each rule), never the model's; and, for each statement with hypotheses, a witness that meets
them. -/

namespace Sys2Proof.Machine.Tests

/-- The next state of an outcome; a stop gives the reset state, which no test expects. -/
def after (o : Host.Outcome State Fault Refusal) : State :=
  match o with
  | .next t => t
  | .fault _ => State.reset
  | .refused _ => State.reset

/-- A small state with its first three slots given. -/
def timed (seconds minutes hours : Byte) : State :=
  { State.reset with record := { TimeRecord.zero with seconds := seconds, minutes := minutes, hours := hours } }

/-- Record A of 95_test_vectors 2.8, with a selector. -/
def recordA (sel : Byte) : State :=
  { State.reset with record := ⟨0x45, 0x30, 0x71, 0x01, 0x01, 0x01, 0x18⟩, sel := sel }

/-- A state whose `IBUF` starts with a text, NULs after it. -/
def withText (text : List Byte) : State :=
  { State.reset with ibuf := Vector.ofFn fun k => text.getD k.val 0x00 }

/-- A state with one access pending. -/
def pendingOne (a : HostAction) : State := State.reset.withPending [a]

/-! ### Decoding: words written out from 30_encoding R71, R72, R74, bit 7 first -/

theorem test_decode_d2b : decode 0b00000001 = .ok .d2b := rfl
theorem test_decode_b2d : decode 0b00000010 = .ok .b2d := rfl
theorem test_decode_b2a : decode 0b00000011 = .ok .b2a := rfl
theorem test_decode_ptime : decode 0b00010000 = .ok .ptime := rfl
theorem test_decode_pdt : decode 0b00010001 = .ok .pdt := rfl
theorem test_decode_mode24 : decode 0b00100000 = .ok (.setmode false) := rfl
theorem test_decode_mode12 : decode 0b00100001 = .ok (.setmode true) := rfl
theorem test_decode_dow : decode 0b00110000 = .ok .dow := rfl
theorem test_decode_tosec : decode 0b01000000 = .ok .tosec := rfl
theorem test_decode_adv : decode 0b01000001 = .ok .adv := rfl
theorem test_decode_almenc : decode 0b01010000 = .ok .almenc := rfl
theorem test_decode_almdec1 : decode 0b01010010 = .ok (.almdec false) := rfl
theorem test_decode_almdec2 : decode 0b01010011 = .ok (.almdec true) := rfl
theorem test_decode_fmtt : decode 0b01100000 = .ok .fmtt := rfl
theorem test_decode_fmtd : decode 0b01100001 = .ok .fmtd := rfl
theorem test_decode_fmtn : decode 0b01100010 = .ok .fmtn := rfl

/-- R76: 0x51 is "not an ALMENC variant", and 0x00 is illegal too. -/
theorem test_decode_refuses : decode 0x51 = .error (.illegalCommand 0x51) ∧ decode 0x00 = .error (.illegalCommand 0x00) :=
  ⟨rfl, rfl⟩

theorem test_table_word : decodeTableWord 8 0x53 = some (.almdec true) ∧ decodeTableWord 8 0x63 = none := ⟨rfl, rfl⟩

/-! ### Well-formedness: the one check of the action language (R78) -/

theorem test_ldstr_31_is_wellFormed : Action.wellFormed (.ldstr (List.replicate 31 0x31)) = true := by decide
theorem test_ldstr_32_is_illFormed : Action.wellFormed (.ldstr (List.replicate 32 0x31)) = false := by decide
theorem test_program_with_long_string_is_illFormed :
    programWellFormed [.mode12, .ldstr (List.replicate 32 0x31)] = false := by decide

/-! ### One step of each command (95_test_vectors part 2) -/

theorem test_d2b_out_of_domain : (after (exec .d2b { State.reset with a0 := 0xFF })).res0 = 0x95 := by decide
theorem test_d2b_tens_wrap : (after (exec .d2b { State.reset with a0 := 0xA0, res1 := 7 })).res0 = 0x00 := by decide
theorem test_b2d_largest : (after (exec .b2d { State.reset with a0 := 0xFF })).res0 = 0xA5 := by decide
theorem test_b2a_out_of_domain :
    let t := after (exec .b2a { State.reset with a0 := 0x7F })
    t.res0 = 0x37 ∧ t.res1 = 0x3F := by decide

/-- `12:30:45P`. -/
theorem test_ptime_pm :
    let t := after (exec .ptime (withText [0x31, 0x32, 0x3A, 0x33, 0x30, 0x3A, 0x34, 0x35, 0x50]))
    t.record = ⟨0x45, 0x30, 0x72, 0, 0, 0, 0⟩ ∧ t.count = 3 ∧ t.status = 0x01 := by decide
/-- `12:345:6`: the third digit of the second group. -/
theorem test_ptime_third_digit :
    let t := after (exec .ptime (withText [0x31, 0x32, 0x3A, 0x33, 0x34, 0x35, 0x3A, 0x36]))
    t.record = ⟨0, 0, 0x12, 0, 0, 0, 0⟩ ∧ t.count = 1 ∧ t.status = 0x00 := by decide
/-- E6, `1/1/18 11:30:45P`. -/
theorem test_pdt_example :
    let t := after (exec .pdt (withText [0x31, 0x2F, 0x31, 0x2F, 0x31, 0x38, 0x20, 0x31, 0x31, 0x3A, 0x33, 0x30, 0x3A,
      0x34, 0x35, 0x50]))
    t.record = ⟨0x45, 0x30, 0x71, 0x01, 0x01, 0x01, 0x18⟩ ∧ t.count = 6 ∧ t.status = 0x01 := by decide
/-- `1/1/18 11:30`: five groups, no day of week. -/
theorem test_pdt_short :
    let t := after (exec .pdt (withText [0x31, 0x2F, 0x31, 0x2F, 0x31, 0x38, 0x20, 0x31, 0x31, 0x3A, 0x33, 0x30]))
    t.record = ⟨0, 0x30, 0x11, 0, 0x01, 0x01, 0x18⟩ ∧ t.count = 5 ∧ t.status = 0x00 := by decide

/-- R121: the 12-hour byte of each hour 0 to 23. -/
theorem test_setmode_table : (List.range 24).map (fun h => convertMode true (bcd h)) =
    [0x52, 0x41, 0x42, 0x43, 0x44, 0x45, 0x46, 0x47, 0x48, 0x49, 0x50, 0x51,
     0x72, 0x61, 0x62, 0x63, 0x64, 0x65, 0x66, 0x67, 0x68, 0x69, 0x70, 0x71] := by decide
theorem test_setmode_keeps_bit7_without_converting :
    (after (exec (.setmode false) (timed 0 0 0x80))).record.hours = 0x80 ∧
    (after (exec (.setmode true) (timed 0 0 0x80))).record.hours = 0x52 := by decide

theorem test_dow_example : (after (exec .dow { State.reset with a0 := 1, a1 := 1 })).res0 = 7 := by decide
theorem test_dow_out_of_domain :
    (after (exec .dow { State.reset with a0 := 255, a1 := 255, a2 := 255 })).res0 = 7 := by decide

theorem test_tosec_example : (after (exec .tosec (timed 0x45 0x30 0x71))).secs = 84645 := by decide
theorem test_tosec_largest : (after (exec .tosec (timed 0xFF 0xFF 0x3F))).secs = 172065 := by decide
theorem test_adv_midnight_12h :
    let t := after (exec .adv { timed 0x59 0x59 0x71 with delta := 1 })
    t.record = ⟨0, 0, 0x52, 0, 0, 0, 0⟩ ∧ t.status = 0x02 := by decide
/-- The sum needs 33 bits. -/
theorem test_adv_33_bits :
    let t := after (exec .adv { timed 0x30 0x15 0x08 with delta := 4294967295 })
    t.record = ⟨0x45, 0x43, 0x14, 0, 0, 0, 0⟩ ∧ t.status = 0x02 := by decide

theorem test_almenc_channel1 :
    let t := after (exec .almenc (recordA 0x1F))
    t.alm.toList = [0xC5, 0xB0, 0xF1, 0xC1] ∧ t.alen = 4 := by decide
theorem test_almenc_channel2 :
    let t := after (exec .almenc (recordA 0x9E))
    t.alm.toList = [0xB0, 0xF1, 0xC1, 0x00] ∧ t.alen = 3 := by decide
theorem test_almdec_both :
    let s := { recordA 0 with alm := #v[0xC5, 0xB0, 0xF1, 0x81] }
    (after (exec (.almdec false) s)).record = ⟨0xC5, 0xB0, 0xF1, 0x01, 0x01, 0x01, 0x18⟩ ∧
    (after (exec (.almdec true) s)).record = ⟨0x45, 0xC5, 0xB0, 0x01, 0x01, 0x01, 0x18⟩ := by decide

theorem test_fmtt_12h : (after (exec .fmtt (recordA 0))).tbuf.toList =
    [0x31, 0x31, 0x3A, 0x33, 0x30, 0x3A, 0x34, 0x35, 0x20, 0x50, 0x4D, 0x00] := by decide
theorem test_fmtt_clears_tail :
    (after (exec .fmtt { timed 0x45 0x30 0x23 with tbuf := Vector.replicate 12 0x50 })).tbuf.toList =
    [0x32, 0x33, 0x3A, 0x33, 0x30, 0x3A, 0x34, 0x35, 0x00, 0x00, 0x00, 0x00] := by decide
/-- `1;/3:/:0`, out of the domain. -/
theorem test_fmtd_out_of_domain :
    (after (exec .fmtd { State.reset with record := ⟨0xC5, 0xB0, 0xF1, 0x08, 0x3A, 0x1B, 0xA0⟩ })).dbuf.toList =
    [0x31, 0x3B, 0x2F, 0x33, 0x3A, 0x2F, 0x3A, 0x30, 0x00] := by decide
theorem test_fmtn_thr_and_unknown :
    (after (exec .fmtn { State.reset with record := { TimeRecord.zero with dayOfWeek := 5 } })).nbuf.toList =
      [0x54, 0x68, 0x72, 0x00] ∧
    (after (exec .fmtn State.reset)).nbuf.toList = [0x3F, 0x3F, 0x3F, 0x00] := by decide

/-! ### The host port (95_test_vectors 2.11, 2.12) -/

theorem test_step_runs_presented_command :
    let t := after (step (State.withFetchWord State.reset 8 0x62))
    t.nbuf.toList = [0x3F, 0x3F, 0x3F, 0x00] ∧ t.cmd = 0x62 ∧ t.pending = [] := by decide
theorem test_illegal_command :
    let t := after (step (State.withFetchWord State.reset 8 0x51))
    t.status = 0x04 ∧ t.cmd = 0x51 := by decide
theorem test_write_read_only : after (step (pendingOne (.write 0x0C 0x55))) = State.reset := by decide
theorem test_write_delta_top_byte : (after (step (pendingOne (.write 0x13 0x12)))).delta = 0x12000000 := by decide
theorem test_read_reserved : (after (step (pendingOne (.read 0xF0)))).replies = [0x00] := by decide
/-- A constant of the action language: P1's encoding of `LDSTR "1"`. -/
theorem test_ldstr_expands : Action.expand (.ldstr [0x31]) = [.write 0x20 0x31, .write 0x21 0x00] := by decide
/-- 90_conflicts C7 says the two 12-hour decodings differ for a stored hour 0; the pseudocode of both rules gives the same hour
there (log 7). They differ for 13. -/
theorem test_stored_hour_zero_and_thirteen :
    (hourTo24 0x40 = timeOfDayHour 0x40 ∧ hourTo24 0x60 = timeOfDayHour 0x60) ∧
    hourTo24 0x73 = 13 ∧ timeOfDayHour 0x73 = 25 := by decide

/-! ### Witnesses: a state and operands that meet each statement's hypotheses -/

theorem witness_reset_input : (pendingOne .reset).pending = [.reset] := rfl
/-- A set ILL that the reset input clears. -/
theorem witness_ill_cleared :
    let s := { pendingOne .reset with status := 0x04 }
    s.ill = true ∧ step s = .next State.reset ∧ State.reset.ill = false := ⟨by decide, rfl, by decide⟩
theorem witness_peek_agrees : (∀ o : Byte, State.reset.peek o = State.reset.peek o) ∧ State.reset.pending = [] := ⟨fun _ => rfl, rfl⟩
/-- Both ends of each reserved range and of each read-only range. -/
theorem witness_reserved_offsets : ∀ o ∈ ([0x07, 0x1D, 0x1E, 0x59, 0xFF] : List Byte),
    reservedOffset o ∧ (pendingOne (.write o 0xAA)).pending = [.write o 0xAA] := by
  simp only [reservedOffset]
  decide
theorem witness_read_only_offsets : ∀ o ∈ ([0x0C, 0x0F, 0x14, 0x17, 0x1C, 0x40, 0x58] : List Byte),
    readOnlyOffset o ∧ (pendingOne (.write o 0xAA)).pending = [.write o 0xAA] := by
  simp only [readOnlyOffset]
  decide
/-- Both ends of each writable range. -/
theorem witness_writable_offsets : ∀ o ∈ ([0x00, 0x06, 0x08, 0x0B, 0x10, 0x13, 0x18, 0x1B, 0x20, 0x3F] : List Byte),
    ¬ reservedOffset o ∧ ¬ readOnlyOffset o ∧ o ≠ 0x1F ∧ (pendingOne (.write o 0xAA)).pending = [.write o 0xAA] := by
  simp only [reservedOffset, readOnlyOffset]
  decide
theorem witness_map_clauses : regAt 0x58 = some (.dbuf 8) ∧ regAt 0x59 = none := by decide
theorem witness_read : (pendingOne (.read 0x58)).pending = [.read 0x58] := rfl
theorem witness_idle : State.reset.pending = [] := rfl
theorem witness_illegal_byte : (0x51 : Byte) ∉ legalCodes ∧
    (pendingOne (.write 0x1F 0x51)).pending = [.write 0x1F 0x51] := by decide
theorem witness_decoded : decode 0x53 = .ok (.almdec true) ∧
    (pendingOne (.write 0x1F 0x53)).pending = [.write 0x1F 0x53] := ⟨rfl, rfl⟩
theorem witness_longest_string : Action.wellFormed (.ldstr (List.replicate 31 0x31)) = true ∧
    31 ≤ (List.replicate 31 (0x31 : Byte)).length := by decide
theorem witness_legal_registers : RegistersLegal State.reset ∧ step State.reset = .next State.reset :=
  ⟨⟨by decide, by decide, by decide, by decide, by decide, by decide, by decide, by decide, by decide⟩, rfl⟩
/-- Two states that differ in the register D2B writes, not in the one it reads. -/
theorem witness_footprint :
    (∀ r, r ∈ readsOf .d2b ∨ r ∈ mayKeep .d2b → State.reset.get r = (State.reset.set .res0 0x01).get r) ∧
    State.reset ≠ State.reset.set .res0 0x01 := by
  refine ⟨?_, by decide⟩
  intro r hr
  simp only [readsOf, mayKeep, List.mem_singleton, List.not_mem_nil, or_false] at hr
  subst hr
  rfl
theorem witness_flags_untouched : Instr.fmtn ≠ .ptime ∧ Instr.fmtn ≠ .pdt ∧ Instr.fmtn ≠ .adv := by decide
theorem witness_valid_time : validTime (timed 0x59 0x59 0x71).record = true ∧ validTime (timed 0x59 0x59 0x23).record = true ∧
    validHourByte 0x52 = true := by decide
theorem witness_isBcd : isBcd { State.reset with a0 := 0x99 }.a0 = true := by decide
theorem witness_group : IsGroup [] ∧ IsGroup [0x39] ∧ IsGroup [0x30, 0x39] := by
  refine ⟨⟨by decide, by decide⟩, ⟨by decide, by decide⟩, ⟨by decide, by decide⟩⟩
/-- `9:5:3` and a NUL, and `9::5P` with an empty group and a marker. -/
theorem witness_ptime :
    (IsGroup [0x39] ∧ IsGroup [0x35] ∧ IsGroup [0x33] ∧ isDelimiter 0x3A = true ∧
      Terminated [0x33] (List.replicate 27 0x00) ∧
      (withText [0x39, 0x3A, 0x35, 0x3A, 0x33]).ibuf.toList =
        [0x39] ++ 0x3A :: ([0x35] ++ 0x3A :: ([0x33] ++ List.replicate 27 0x00))) ∧
    (IsGroup [] ∧ Terminated [0x35] (0x50 :: List.replicate 27 0x00) ∧
      (withText [0x39, 0x3A, 0x3A, 0x35, 0x50]).ibuf.toList =
        [0x39] ++ 0x3A :: ([] ++ 0x3A :: ([0x35] ++ 0x50 :: List.replicate 27 0x00))) := by
  refine ⟨⟨⟨by decide, by decide⟩, ⟨by decide, by decide⟩, ⟨by decide, by decide⟩, by decide, ?_, by decide⟩,
    ⟨⟨by decide, by decide⟩, .inl ⟨0x50, _, rfl, by decide⟩, by decide⟩⟩
  exact .inr ⟨by decide, .inr ⟨List.replicate 26 0x00, rfl⟩⟩
/-- `1/1/0 0:0:0` and a NUL. -/
theorem witness_pdt :
    IsGroup [0x31] ∧ IsGroup [0x30] ∧ isDelimiter 0x2F = true ∧ isDelimiter 0x20 = true ∧ isDelimiter 0x3A = true ∧
    Terminated [0x30] (List.replicate 21 0x00) ∧
    (withText [0x31, 0x2F, 0x31, 0x2F, 0x30, 0x20, 0x30, 0x3A, 0x30, 0x3A, 0x30]).ibuf.toList =
      [0x31] ++ 0x2F :: ([0x31] ++ 0x2F :: ([0x30] ++ 0x20 :: ([0x30] ++ 0x3A :: ([0x30] ++ 0x3A ::
        ([0x30] ++ List.replicate 21 0x00))))) :=
  ⟨⟨by decide, by decide⟩, ⟨by decide, by decide⟩, by decide, by decide, by decide,
    .inr ⟨by decide, .inr ⟨List.replicate 20 0x00, rfl⟩⟩, by decide⟩
/-- `12:345`, which meets the hypotheses for PTIME and for PDT. -/
theorem witness_third_digit :
    IsBody [([0x31, 0x32], 0x3A)] ∧ isDigit 0x33 = true ∧ isDigit 0x34 = true ∧ isDigit 0x35 = true ∧
    (withText [0x31, 0x32, 0x3A, 0x33, 0x34, 0x35]).ibuf.toList =
      joinGroups [([0x31, 0x32], 0x3A)] ++ 0x33 :: 0x34 :: 0x35 :: List.replicate 26 0x00 ∧
    [(([0x31, 0x32] : List Byte), (0x3A : Byte))].length < 3 := by
  refine ⟨?_, by decide, by decide, by decide, by decide, by decide⟩
  intro p hp
  simp only [List.mem_singleton] at hp
  subst hp
  exact ⟨⟨by decide, by decide⟩, by decide⟩
/-- `9:5`, with a group in progress at the NUL, and `9:`, without one. -/
theorem witness_short_input :
    IsBody [([0x39], 0x3A)] ∧ IsGroup [0x35] ∧
    (withText [0x39, 0x3A, 0x35]).ibuf.toList =
      joinGroups [([0x39], 0x3A)] ++ [0x35] ++ 0x00 :: List.replicate 28 0x00 ∧
    (groupsAtEnd [([0x39], 0x3A)] [0x35]).length < 3 ∧
    (withText [0x39, 0x3A]).ibuf.toList = joinGroups [([0x39], 0x3A)] ++ [] ++ 0x00 :: List.replicate 29 0x00 ∧
    (groupsAtEnd [([0x39], 0x3A)] []).length < 3 := by
  refine ⟨?_, ⟨by decide, by decide⟩, by decide, by decide, by decide, by decide⟩
  intro p hp
  simp only [List.mem_singleton] at hp
  subst hp
  exact ⟨⟨by decide, by decide⟩, by decide⟩
/-- Texts in the domain: `9:5:3`, `12:30:45P`, and `1/1/18 11:30:45P` (E6, E7). -/
theorem witness_text_in_domain :
    inDomain .ptime (withText [0x39, 0x3A, 0x35, 0x3A, 0x33]) = true ∧
    inDomain .ptime (withText [0x31, 0x32, 0x3A, 0x33, 0x30, 0x3A, 0x34, 0x35, 0x50]) = true ∧
    inDomain .pdt (withText [0x31, 0x2F, 0x31, 0x2F, 0x31, 0x38, 0x20, 0x31, 0x31, 0x3A, 0x33, 0x30, 0x3A, 0x34, 0x35,
      0x50]) = true := by decide
/-- Out of the domain, by 95_test_vectors 2.2 and 2.3 and R110: `45:00:00`, `23:00:00P`, `9:5` and, for PDT, `0/1/18 1:2:3`. -/
theorem test_text_out_of_domain :
    inDomain .ptime (withText [0x34, 0x35, 0x3A, 0x30, 0x30, 0x3A, 0x30, 0x30]) = false ∧
    inDomain .ptime (withText [0x32, 0x33, 0x3A, 0x30, 0x30, 0x3A, 0x30, 0x30, 0x50]) = false ∧
    inDomain .ptime (withText [0x39, 0x3A, 0x35]) = false ∧
    inDomain .pdt (withText [0x30, 0x2F, 0x31, 0x2F, 0x31, 0x38, 0x20, 0x31, 0x3A, 0x32, 0x3A, 0x33]) = false := by decide
/-- Each clause of SETMODE's statement: no-op, 24 to 12, 12 to 24. -/
theorem witness_setmode : BitVec.getLsbD (0x23 : Byte) 6 = false ∧ BitVec.getLsbD (0x71 : Byte) 6 = true ∧
    dec (0x23 &&& 0x3F) = 23 ∧ dec (0x71 &&& 0x1F) = 11 := by decide
theorem witness_mode_round_trip : validHourByte (timed 0 0 0x23).record.hours = true ∧ is12 0x23 = !true ∧
    validHourByte (timed 0 0 0x71).record.hours = true ∧ is12 0x71 = !false ∧ (timed 0 0 0x29).record.hours = 0x29 := by decide
/-- The premises of the laws of ADV, the second law's at the largest sum. -/
theorem witness_advance_laws :
    validTime (timed 0x59 0x59 0x23).record = true ∧ (1#32).toNat + (4294967294#32).toNat < 2 ^ 32 ∧
    { timed 0 0 0x52 with delta := 86399 }.delta.toNat ≤ 86399 ∧ (timed 0 0 0x52).record.hours = 0x52 ∧
    (timed 0 0 0).record.hours = 0x00 := by decide
theorem witness_same_seconds :
    validTime (timed 0x59 0x59 0x23).record = true ∧ is12 (timed 0x59 0x59 0x23).record.hours = is12 0x23 ∧
    (timed 0x59 0x59 0x23).delta = 0 := by decide
theorem witness_channels : BitVec.getLsbD (recordA 0x1F).sel 7 = false ∧ BitVec.getLsbD (recordA 0x9E).sel 7 = true := by decide
/-- Both modes, and a day-of-week in every clause of FMTN's statement, at the boundaries. -/
theorem witness_formatter : BitVec.getLsbD (0x71 : Byte) 6 = true ∧ BitVec.getLsbD (0x23 : Byte) 6 = false ∧
    8 ≤ (0x08 : Byte).toNat ∧ (recordA 0).record.dayOfWeek = 1 := by decide
/-- `39:59:59`, the largest hour that leaves the mode flag alone. -/
theorem witness_parse_then_format :
    isDigit 0x33 = true ∧ (0x33 : Byte).toNat ≤ 0x33 ∧ isDigit 0x39 = true ∧ isDigit 0x35 = true ∧
    (withText [0x33, 0x39, 0x3A, 0x35, 0x39, 0x3A, 0x35, 0x39]).ibuf.toList =
      [0x33, 0x39, 0x3A, 0x35, 0x39, 0x3A, 0x35, 0x39, 0x00] ++ List.replicate 23 0x00 ∧
    (withText [0x39, 0x3A, 0x35, 0x3A, 0x33]).ibuf.toList =
      [0x39, 0x3A, 0x35, 0x3A, 0x33, 0x00] ++ List.replicate 26 0x00 := by decide

end Sys2Proof.Machine.Tests
end

section
/-! PROOFS. The state at reset (10_state R40). -/

namespace Sys2Proof.Machine

/-! ### The reset state, register by register -/

@[simp] theorem wordByte_zero (k : Fin 4) : wordByte 0 k = 0 := BitVec.extractLsb'_zero

@[simp] theorem TimeRecord.get_zero (slot : Slot) : TimeRecord.zero.get slot = 0 := by cases slot <;> rfl

/-- R40, over the map of R51: the indexed registers by their own lemmas, every other one as a field of `State.reset`. -/
@[simp] theorem State.get_reset (r : Reg) : State.reset.get r = 0x00 := by
  cases r
  case record slot => exact TimeRecord.get_zero slot
  case delta k => exact wordByte_zero k
  case secs k => exact wordByte_zero k
  case alm k | ibuf k | tbuf k | nbuf k | dbuf k => simp [State.get, State.reset, Vector.get_eq_getElem]
  all_goals rfl

/-! ### The reset record -/

/-- R23 numbers the days of the week from 1. -/
theorem validRecord_eq_false_of_dayOfWeek_eq_zero {r : TimeRecord} (h : r.dayOfWeek = 0) : validRecord r = false := by
  simp [validRecord, h]

/-- Settles O1: each register by `State.get_reset`, and the all-zero record by its day of week. -/
theorem resetStateHoldsZeroEverywhere : Obligations.ResetStateHoldsZeroEverywhere := by
  have hrecord : validRecord State.reset.record = false := validRecord_eq_false_of_dayOfWeek_eq_zero rfl
  exact ⟨State.get_reset, rfl, rfl, rfl, rfl, rfl, hrecord⟩

end Sys2Proof.Machine
end

section
/-! PROOFS. The register space (20_memory R51, R53). -/

namespace Sys2Proof.Machine

/-! ### The map of R51 -/

/-- R51: the map finds every register at its own offset, each indexed register over its whole index range. -/
@[simp] theorem regAt_regOffset (r : Reg) : regAt (regOffset r) = some r := by
  cases r
  case record slot => cases slot <;> rfl
  case delta k | secs k | alm k | ibuf k | tbuf k | nbuf k | dbuf k => revert k; decide +kernel
  all_goals rfl

@[simp] theorem State.peek_regOffset (s : State) (r : Reg) : s.peek (regOffset r) = s.get r := by
  simp [State.peek]

/-! ### The bytes of a 32-bit word -/

theorem wordByte_toNat (w : Word32) (k : Fin 4) : (wordByte w k).toNat = w.toNat / 2 ^ (8 * k.val) % 2 ^ 8 := by
  rw [wordByte, BitVec.extractLsb'_toNat, Nat.shiftRight_eq_div_pow]

/-- R53: the number a word holds, in base 256 with byte 0 the least significant digit. -/
theorem toNat_eq_sum_wordByte (w : Word32) :
    w.toNat = (wordByte w 0).toNat + (wordByte w 1).toNat * 2 ^ 8 + (wordByte w 2).toNat * 2 ^ 16 +
      (wordByte w 3).toNat * 2 ^ 24 := by
  have hw : w.toNat < 2 ^ 32 := w.isLt
  simp only [wordByte_toNat, Fin.isValue, Fin.coe_ofNat_eq_mod, Nat.reduceMod, Nat.reduceMul, Nat.reducePow]
  omega

/-- Settles O5: each byte read is a byte of the wide register, by `State.peek_regOffset`, and the bytes sum to the word. -/
theorem wideRegistersAreLittleEndian : Obligations.WideRegistersAreLittleEndian := by
  intro s
  have hdelta (k : Fin 4) : s.peek (regOffset (.delta k)) = wordByte s.delta k := s.peek_regOffset (.delta k)
  have hsecs (k : Fin 4) : s.peek (regOffset (.secs k)) = wordByte s.secs k := s.peek_regOffset (.secs k)
  constructor
  · have hsum := toNat_eq_sum_wordByte s.delta
    simp only [← hdelta] at hsum
    exact hsum
  · have hsum := toNat_eq_sum_wordByte s.secs
    simp only [← hsecs] at hsum
    exact hsum

end Sys2Proof.Machine
end

section
/-! PROOFS. The opcode map (30_encoding R70 to R74). -/

namespace Sys2Proof.Machine

/-! ### The bytes of the commands -/

/-- The law of the opcode map, gathered from its statement for each command. -/
theorem opcodeRow_statement (i : Instr) : Laws.OpcodeRow.Statement i := by
  cases i with
  | d2b => exact Laws.OpcodeRow.d2b
  | b2d => exact Laws.OpcodeRow.b2d
  | b2a => exact Laws.OpcodeRow.b2a
  | ptime => exact Laws.OpcodeRow.ptime
  | pdt => exact Laws.OpcodeRow.pdt
  | setmode w => exact Laws.OpcodeRow.setmode w
  | dow => exact Laws.OpcodeRow.dow
  | tosec => exact Laws.OpcodeRow.tosec
  | adv => exact Laws.OpcodeRow.adv
  | almenc => exact Laws.OpcodeRow.almenc
  | almdec c => exact Laws.OpcodeRow.almdec c
  | fmtt => exact Laws.OpcodeRow.fmtt
  | fmtd => exact Laws.OpcodeRow.fmtd
  | fmtn => exact Laws.OpcodeRow.fmtn

/-- The byte of a command selects one row of the map, and that row builds the command. -/
theorem filter_rowMatches_encode (i : Instr) :
    ∃ row, opcodeMap.filter (rowMatches (encode i)) = [row] ∧ row.build (imm1 (encode i)) = i := by
  obtain ⟨hrows, -⟩ := opcodeRow_statement i
  exact List.map_eq_singleton_iff.1 hrows

/-- R70 to R74: the decoder takes the first row a byte selects, which for a command's byte is its only one. -/
@[simp] theorem decode_encode (i : Instr) : decode (encode i) = .ok i := by
  obtain ⟨row, hrow, hbuild⟩ := filter_rowMatches_encode i
  have hfind : opcodeMap.find? (rowMatches (encode i)) = some row := by rw [← List.head?_filter, hrow, List.head?_cons]
  simp only [decode, hfind, hbuild]

/-- Each of the sixteen codes of R74 is the byte of a command. -/
theorem exists_encode_eq_of_mem_legalCodes {c : Byte} (hc : c ∈ legalCodes) : ∃ i, encode i = c := by
  have hcodes : legalCodes = [Instr.d2b, .b2d, .b2a, .ptime, .pdt, .setmode false, .setmode true, .dow, .tosec, .adv,
      .almenc, .almdec false, .almdec true, .fmtt, .fmtd, .fmtn].map encode := by decide
  rw [hcodes] at hc
  obtain ⟨i, -, hi⟩ := List.mem_map.1 hc
  exact ⟨i, hi⟩

/-! ### The bytes that select a row -/

/-- A format B mask leaves bit 0 free (R72). -/
theorem eq_or_eq_or_one_of_and_fe {c p : Byte} (h : c &&& 0xFE = p) : c = p ∨ c = p ||| 1 := by
  subst h
  revert c
  decide

/-- Each row of R74 fixes all eight bits, or all but bit 0; the bytes that leaves are among the sixteen codes. -/
theorem opcodeMap_masks : ∀ row ∈ opcodeMap, row.pattern ∈ legalCodes ∧
    (row.mask = 0xFF ∨ row.mask = 0xFE ∧ row.pattern ||| 1 ∈ legalCodes) := by
  decide

theorem mem_legalCodes_of_rowMatches {c : Byte} {row : OpcodeRow} (hrow : row ∈ opcodeMap) (h : rowMatches c row) :
    c ∈ legalCodes := by
  have hand : c &&& row.mask = row.pattern := beq_iff_eq.1 h
  obtain ⟨hpattern, hmask | ⟨hmask, hodd⟩⟩ := opcodeMap_masks row hrow <;> rw [hmask] at hand
  · have hc : c = row.pattern := by rw [← hand]; exact BitVec.and_allOnes.symm
    exact hc ▸ hpattern
  · obtain rfl | rfl := eq_or_eq_or_one_of_and_fe hand
    · exact hpattern
    · exact hodd

theorem not_rowMatches_of_not_mem_legalCodes {c : Byte} (hc : c ∉ legalCodes) : ∀ row ∈ opcodeMap, ¬ rowMatches c row :=
  fun _ hrow h => hc (mem_legalCodes_of_rowMatches hrow h)

/-- R76: a byte outside the sixteen codes selects no row, and is refused by name. -/
theorem decode_of_not_mem_legalCodes {c : Byte} (hc : c ∉ legalCodes) : decode c = .error (.illegalCommand c) := by
  have hfind : opcodeMap.find? (rowMatches c) = none := List.find?_eq_none.2 (not_rowMatches_of_not_mem_legalCodes hc)
  simp only [decode, hfind]

/-- R74: the rows are disjoint. A code selects its command's one row, any other byte none. -/
theorem length_filter_rowMatches_le_one (c : Byte) : (opcodeMap.filter (rowMatches c)).length ≤ 1 := by
  by_cases hc : c ∈ legalCodes
  · obtain ⟨i, rfl⟩ := exists_encode_eq_of_mem_legalCodes hc
    obtain ⟨row, hrow, -⟩ := filter_rowMatches_encode i
    rw [hrow, List.length_singleton]
  · rw [List.filter_eq_nil_iff.2 (not_rowMatches_of_not_mem_legalCodes hc)]
    exact Nat.zero_le 1

/-- Settles O11: each code is the byte of its command, read back by `decode_encode`; the other bytes select no row. -/
theorem opcodeMapIsComplete : Obligations.OpcodeMapIsComplete :=
  ⟨decode_encode .d2b, decode_encode .b2d, decode_encode .b2a, decode_encode .ptime, decode_encode .pdt,
    decode_encode (.setmode false), decode_encode (.setmode true), decode_encode .dow, decode_encode .tosec,
    decode_encode .adv, decode_encode .almenc, decode_encode (.almdec false), decode_encode (.almdec true),
    decode_encode .fmtt, decode_encode .fmtd, decode_encode .fmtn,
    fun _ hc => decode_of_not_mem_legalCodes hc, length_filter_rowMatches_le_one⟩

end Sys2Proof.Machine
end

section
/-! PROOFS. The BCD conversions (40_bcd_codec R90 to R92). -/

namespace Sys2Proof.Machine

/-! ### The frame of a register stored -/

theorem sameExcept_set (s : State) (r : Reg) (v : Byte) : SameExcept [r] s (s.set r v) :=
  ⟨fun _ hr => s.get_set_other v (List.ne_of_not_mem_cons hr), s.set_pending r v, s.set_replies r v⟩

/-- Two updates in a row touch at most the registers of both. -/
theorem SameExcept.trans {ws ws' : List Reg} {s t u : State} (h : SameExcept ws s t) (h' : SameExcept ws' t u) :
    SameExcept (ws ++ ws') s u := by
  obtain ⟨hget, hpending, hreplies⟩ := h
  obtain ⟨hget', hpending', hreplies'⟩ := h'
  refine ⟨fun r hr => ?_, hpending'.trans hpending, hreplies'.trans hreplies⟩
  obtain ⟨hws, hws'⟩ := not_or.1 (mt List.mem_append.2 hr)
  exact (hget' r hws').trans (hget r hws)

/-! ### The three commands -/

/-- `Dec(b)` is at most 165, so the byte that stores it loses nothing. -/
theorem ofNat_dec_toNat (b : Byte) : (BitVec.ofNat 8 (dec b)).toNat = dec b :=
  Nat.mod_eq_of_lt ((dec_le b).trans_lt (by decide))

/-- Settles O23: D2B stores `Bcd(A0)`, whose value is `bcd_toNat`. -/
theorem d2bPacksTensAndUnits : Obligations.D2bPacksTensAndUnits :=
  ⟨decode_encode .d2b, fun s => ⟨_, exec_d2b s, bcd_toNat s.a0.toNat, sameExcept_set s .res0 _⟩⟩

/-- Settles O24: B2D stores `Dec(A0)`, which fits a byte. -/
theorem b2dUnpacksTensAndUnits : Obligations.B2dUnpacksTensAndUnits :=
  ⟨decode_encode .b2d, fun s =>
    ⟨_, exec_b2d s, (ofNat_dec_toNat s.a0).trans (dec_eq s.a0), sameExcept_set s .res0 _⟩⟩

/-- Settles O25: B2A stores the two characters of `Asc(A0)`, one register after the other. -/
theorem b2aRendersBothNibbles : Obligations.B2aRendersBothNibbles :=
  ⟨decode_encode .b2a, fun s =>
    ⟨_, exec_b2a s, ascHi_toNat s.a0, ascLo_toNat s.a0,
      (sameExcept_set s .res0 (ascHi s.a0)).trans (sameExcept_set _ .res1 (ascLo s.a0))⟩⟩

end Sys2Proof.Machine
end

section
/-! PROOFS. The Mode Converter (42_mode_converter R120). -/

namespace Sys2Proof.Machine

/-! ### The hour of a byte, by its mode flag -/

theorem hour_of_24 {b : Byte} (hmode : is12 b = false) : hour b = dec (b &&& 0x3F) := by
  have hbit : b.getLsbD 6 = false := hmode
  rw [hour, hourBits_eq, if_neg (ne_true_of_eq_false hbit)]

theorem hour_of_12 {b : Byte} (hmode : is12 b = true) : hour b = dec (b &&& 0x1F) := by
  have hbit : b.getLsbD 6 = true := hmode
  rw [hour, hourBits_eq, if_pos hbit]

/-- R120, corner case (6): the largest decoded hour is 45, of 0x3F. -/
theorem dec_and_3f_le (b : Byte) : dec (b &&& 0x3F) ≤ 45 := by
  have hbits : (b &&& 0x3F).toNat ≤ 0x3F := BitVec.toNat_and b 0x3F ▸ Nat.and_le_right
  rw [dec_eq]
  omega

/-- `mod 12` keeps the converted hour at most 23 on every byte, as R120, corner case (6), says. -/
theorem hourTo24_le (b : Byte) : hourTo24 b ≤ 23 := by
  unfold hourTo24
  split <;> omega

/-- Two decimal digits each fit their nibble. -/
theorem bcd_toNat_of_lt {n : Nat} (hn : n < 160) : (bcd n).toNat = n / 10 * 16 + n % 10 := by
  rw [bcd_toNat, Nat.mod_eq_of_lt (Nat.div_lt_of_lt_mul hn)]

/-! ### The three cases of SETMODE -/

theorem convertMode_of_mode_eq {w : Bool} {b : Byte} (hmode : is12 b = w) : convertMode w b = b := if_pos hmode

theorem convertMode_to_12 {b : Byte} (hmode : is12 b = false) :
    convertMode true b = encodeHour12 (dec (b &&& 0x3F)) := by
  simp [convertMode, hmode, hour_of_24 hmode]

theorem convertMode_to_24 {b : Byte} (hmode : is12 b = true) : convertMode false b = bcd (hourTo24 b) := by
  simp [convertMode, hmode]

theorem hourTo24_of_12 {b : Byte} (hmode : is12 b = true) :
    hourTo24 b = dec (b &&& 0x1F) % 12 + (if isPm b then 12 else 0) := by
  unfold hourTo24
  rw [hour_of_12 hmode]
  split <;> rfl

/-- From 24-hour mode the hour is at most 45, the range of `encodeHour12_toNat`. -/
theorem convertMode_to_12_toNat {b : Byte} {h : Nat} (hmode : is12 b = false) (hh : h = dec (b &&& 0x3F)) :
    (convertMode true b).toNat =
      0x40 + (if 12 ≤ h then 0x20 else 0) + ((h + 11) % 12 + 1) / 10 * 16 + ((h + 11) % 12 + 1) % 10 := by
  rw [convertMode_to_12 hmode, ← hh]
  exact encodeHour12_toNat ⟨h, by have := dec_and_3f_le b; omega⟩

/-- From 12-hour mode the hour is at most 23, and `Bcd` loses no bit of it. -/
theorem convertMode_to_24_toNat {b : Byte} {h : Nat} (hmode : is12 b = true)
    (hh : h = dec (b &&& 0x1F) % 12 + (if isPm b then 12 else 0)) :
    (convertMode false b).toNat = h / 10 * 16 + h % 10 := by
  rw [convertMode_to_24 hmode, bcd_toNat_of_lt (by have := hourTo24_le b; omega), hourTo24_of_12 hmode, ← hh]

/-- Settles O33: SETMODE stores `convertMode` in the hours byte, which has one lemma for each clause. -/
theorem setmodeConvertsTheHoursByte : Obligations.SetmodeConvertsTheHoursByte := by
  refine ⟨decode_encode (.setmode false), decode_encode (.setmode true), fun w s =>
    ⟨_, exec_setmode w s, sameExcept_set s (.record .hours) _, fun hmode => convertMode_of_mode_eq hmode, ?_, ?_⟩⟩
  · rintro hmode rfl h hh
    exact convertMode_to_12_toNat hmode hh
  · rintro hmode rfl h hh
    exact convertMode_to_24_toNat hmode hh

end Sys2Proof.Machine
end

section
/-! PROOFS. The Calendar Calculator (43_calendar R130, R131). -/

namespace Sys2Proof.Machine

/-! ### The range of the formula -/

theorem one_le_dowF (month day year : Nat) : 1 ≤ dowF month day year := Nat.le_add_left 1 _

/-- R131: a remainder modulo 7, plus one. -/
theorem dowF_le (month day year : Nat) : dowF month day year ≤ 7 := Nat.mod_lt _ (by decide)

/-! ### The byte that stores it -/

/-- At most 7, so the byte that stores it loses nothing. -/
theorem ofNat_dowF_toNat (month day year : Nat) :
    (BitVec.ofNat 8 (dowF month day year)).toNat = dowF month day year :=
  Nat.mod_eq_of_lt ((dowF_le month day year).trans_lt (by decide))

/-- Settles O36: DOW stores `DowF(A0, A1, A2)`, which fits a byte and is 1 to 7 on all naturals. -/
theorem dowComputesTheFormula : Obligations.DowComputesTheFormula := by
  refine ⟨decode_encode .dow, fun s => ?_⟩
  have hres := ofNat_dowF_toNat s.a0.toNat s.a1.toNat s.a2.toNat
  exact ⟨_, exec_dow s, hres, (one_le_dowF _ _ _).trans_eq hres.symm, hres.trans_le (dowF_le _ _ _),
    sameExcept_set s .res0 _⟩

end Sys2Proof.Machine
end

section
/-! PROOFS. Time Arithmetic (44_time_arithmetic R140 to R142). -/

namespace Sys2Proof.Machine

/-! ### The hour of the day, by the mode flag -/

theorem timeOfDayHour_of_24 {b : Byte} (hmode : is12 b = false) : timeOfDayHour b = dec (b &&& 0x3F) := by
  rw [timeOfDayHour, hmode, hour_of_24 hmode, if_neg Bool.false_ne_true]

theorem timeOfDayHour_of_12 {b : Byte} (hmode : is12 b = true) :
    timeOfDayHour b = (if dec (b &&& 0x1F) = 12 then 0 else dec (b &&& 0x1F)) + (if isPm b then 12 else 0) := by
  rw [timeOfDayHour, if_pos hmode, hour_of_12 hmode]
  cases isPm b <;> rfl

theorem dec_and_1f_le (b : Byte) : dec (b &&& 0x1F) ≤ 25 := by
  have hbits : (b &&& 0x1F).toNat ≤ 0x1F := BitVec.toNat_and b 0x1F ▸ Nat.and_le_right
  rw [dec_eq]
  omega

/-- R140: 45 is the hour of 0x3F; a 12-hour byte reaches 37. -/
theorem timeOfDayHour_le (b : Byte) : timeOfDayHour b ≤ 45 := by
  cases hmode : is12 b
  case false => exact timeOfDayHour_of_24 hmode ▸ dec_and_3f_le b
  case true =>
    have hhour := dec_and_1f_le b
    rw [timeOfDayHour_of_12 hmode]
    split_ifs <;> omega

theorem timeOfDayHour_le_of_validHourByte {b : Byte} (hb : validHourByte b = true) : timeOfDayHour b ≤ 23 := by
  obtain ⟨-, hrange⟩ := (Bool.and_eq_true _ _).mp hb
  cases hmode : is12 b
  case false =>
    rw [timeOfDayHour_of_24 hmode, ← hour_of_24 hmode]
    simpa [hmode] using hrange
  case true =>
    have hhour : 1 ≤ hour b ∧ hour b ≤ 12 := by simpa [hmode] using hrange
    rw [timeOfDayHour_of_12 hmode, ← hour_of_12 hmode]
    split_ifs <;> omega

/-! ### The seconds since midnight -/

/-- R140: `45 * 3600 + 165 * 60 + 165`. -/
theorem secondsOf_le (r : TimeRecord) : secondsOf r ≤ 172065 := by
  have hhours := timeOfDayHour_le r.hours
  have hminutes := dec_le r.minutes
  have hseconds := dec_le r.seconds
  unfold secondsOf
  omega

theorem validTime_iff (r : TimeRecord) : validTime r = true ↔
    (isBcd r.seconds = true ∧ dec r.seconds ≤ 59) ∧ (isBcd r.minutes = true ∧ dec r.minutes ≤ 59) ∧
    validHourByte r.hours = true := by
  simp [validTime, and_assoc]

theorem secondsOf_le_of_validTime {r : TimeRecord} (hr : validTime r = true) : secondsOf r ≤ 86399 := by
  obtain ⟨⟨-, hseconds⟩, ⟨-, hminutes⟩, hhours⟩ := (validTime_iff r).1 hr
  have hhour := timeOfDayHour_le_of_validHourByte hhours
  unfold secondsOf
  omega

theorem ofNat_secondsOf_toNat (r : TimeRecord) : (BitVec.ofNat 32 (secondsOf r)).toNat = secondsOf r :=
  Nat.mod_eq_of_lt ((secondsOf_le r).trans_lt (by decide))

/-! ### TOSEC -/

theorem sameExcept_secs (s : State) (w : Word32) :
    SameExcept [.secs 0, .secs 1, .secs 2, .secs 3] s { s with secs := w } := by
  refine ⟨fun r hr => ?_, rfl, rfl⟩
  cases r
  case secs k => exact absurd (by fin_cases k <;> simp) hr
  all_goals rfl

/-- Settles O38: TOSEC stores `secondsOf`, which fits the word; the hour of the day has one lemma for each mode. -/
theorem tosecCountsSecondsSinceMidnight : Obligations.TosecCountsSecondsSinceMidnight := by
  refine ⟨decode_encode .tosec, fun s => ?_⟩
  have hsecs := ofNat_secondsOf_toNat s.record
  refine ⟨_, exec_tosec s, fun hmode => ?_, fun hmode => ?_, fun hvalid => ?_, ?_, sameExcept_secs s _⟩
  · rw [hsecs, secondsOf, timeOfDayHour_of_24 hmode]
  · rw [hsecs, secondsOf, timeOfDayHour_of_12 hmode, isPm]
  · exact hsecs.trans_le (secondsOf_le_of_validTime hvalid)
  · exact hsecs.trans_le (secondsOf_le s.record)

/-! ### The slots ADV encodes -/

theorem dec_bcd {n : Nat} (hn : n < 100) : dec (bcd n) = n := by
  rw [dec_eq, bcd_toNat_of_lt (by omega)]
  omega

theorem isBcd_bcd {n : Nat} (hn : n < 100) : isBcd (bcd n) = true := by
  have htens : hiNibble (bcd n) ≤ 9 := by rw [hiNibble_eq, bcd_toNat_of_lt (by omega)]; omega
  have hunits : loNibble (bcd n) ≤ 9 := by rw [loNibble_eq, bcd_toNat_of_lt (by omega)]; omega
  simp [isBcd, htens, hunits]

/-- R141: `EncodeHour` of an hour of the day is a valid byte of its mode that decodes to the hour, by the 48 cases. -/
theorem encodeHour_spec {h : Nat} (hh : h < 24) (mode : Bool) :
    validHourByte (encodeHour h mode) = true ∧ timeOfDayHour (encodeHour h mode) = h ∧
    is12 (encodeHour h mode) = mode := by
  have hcases : ∀ (h : Fin 24) (mode : Bool), validHourByte (encodeHour h.val mode) = true ∧
      timeOfDayHour (encodeHour h.val mode) = h.val ∧ is12 (encodeHour h.val mode) = mode := by decide
  exact hcases ⟨h, hh⟩ mode

/-! ### The record re-encoded from a second of the day -/

theorem validTime_withTimeOfDay (r : TimeRecord) (mode : Bool) {t : Nat} (ht : t < 86400) :
    validTime (withTimeOfDay r mode t) = true := by
  have hsixty (n : Nat) : isBcd (bcd (n % 60)) = true ∧ dec (bcd (n % 60)) ≤ 59 :=
    ⟨isBcd_bcd (by omega), by rw [dec_bcd] <;> omega⟩
  obtain ⟨hhours, -, -⟩ := encodeHour_spec (h := t / 3600) (by omega) mode
  exact (validTime_iff _).2 ⟨hsixty t, hsixty (t / 60), hhours⟩

theorem secondsOf_withTimeOfDay (r : TimeRecord) (mode : Bool) {t : Nat} (ht : t < 86400) :
    secondsOf (withTimeOfDay r mode t) = t := by
  obtain ⟨-, hhour, -⟩ := encodeHour_spec (h := t / 3600) (by omega) mode
  calc secondsOf (withTimeOfDay r mode t)
      = timeOfDayHour (encodeHour (t / 3600) mode) * 3600 + dec (bcd (t / 60 % 60)) * 60 + dec (bcd (t % 60)) := rfl
    _ = t / 3600 * 3600 + t / 60 % 60 * 60 + t % 60 := by
        rw [hhour, dec_bcd (by omega), dec_bcd (by omega)]
    _ = t := by omega

/-! ### ADV -/

theorem sameExcept_timeOfDay_status (s : State) (mode : Bool) (t : Nat) (st : Byte) :
    SameExcept (timeRegs ++ [.status]) s { s with record := withTimeOfDay s.record mode t, status := st } :=
  (((sameExcept_set s (.record .seconds) (bcd (t % 60))).trans
    (sameExcept_set _ (.record .minutes) (bcd (t / 60 % 60)))).trans
    (sameExcept_set _ (.record .hours) (encodeHour (t / 3600) mode))).trans
    (sameExcept_set _ .status st)

/-- Settles O39: the reduced sum is a second of the day, from which `withTimeOfDay` makes a valid time of exactly that
value, and `statusWithWrap` writes the one flag. -/
theorem advAddsModuloADay : Obligations.AdvAddsModuloADay := by
  refine ⟨decode_encode .adv, fun s => ?_⟩
  have ht : (secondsOf s.record + s.delta.toNat) % 86400 < 86400 := Nat.mod_lt _ (by decide)
  have hhour : (secondsOf s.record + s.delta.toNat) % 86400 / 3600 < 24 := by omega
  obtain ⟨-, -, hmode⟩ := encodeHour_spec hhour (is12 s.record.hours)
  obtain ⟨hok, hwrap, hill, hreserved⟩ :=
    statusWithWrap_bits s.status (decide (secondsOf s.record + s.delta.toNat ≥ 86400))
  refine ⟨_, exec_adv s, validTime_withTimeOfDay s.record _ ht, secondsOf_withTimeOfDay s.record _ ht, ?_,
    ?_, hmode, hok, hill, hreserved, sameExcept_timeOfDay_status s _ _ _⟩
  · rintro n rfl
    exact ⟨bcd_toNat_of_lt (by omega), bcd_toNat_of_lt (by omega), rfl⟩
  · exact (Bool.eq_iff_iff.1 hwrap).trans decide_eq_true_iff

end Sys2Proof.Machine
end

section
/-! PROOFS. The Alarm Codec (45_alarm R153, R155). -/

namespace Sys2Proof.Machine

/-! ### The day/date byte -/

theorem setDiscriminator_toNat : ∀ b : Byte,
    (b ||| 1#8 <<< Config.dydtBit).toNat = b.toNat / 128 * 128 + 64 + b.toNat % 64 := by decide +kernel

theorem clearDiscriminator_toNat : ∀ b : Byte,
    (b &&& ~~~(1#8 <<< Config.dydtBit)).toNat = b.toNat / 128 * 128 + b.toNat % 64 := by decide +kernel

/-- R152: writing the discriminator after `inject` leaves bits 5:0 of the slot and the participation bit. -/
theorem dayDate_toNat (r : TimeRecord) (sel : Byte) : (dayDate r sel).toNat =
    (if selDate sel then 128 else 0) +
      (if selDayOfWeek sel then 64 + r.dayOfWeek.toNat % 64 else r.day.toNat % 64) := by
  unfold dayDate
  split
  case isTrue =>
    rw [setDiscriminator_toNat, inject_toNat]
    split <;> omega
  case isFalse =>
    rw [clearDiscriminator_toNat, inject_toNat]
    split <;> omega

/-! ### ALMENC -/

theorem alarmImage_channel1 {sel : Byte} (r : TimeRecord) (hchannel : selChannel2 sel = false) : alarmImage r sel =
    #v[inject r.seconds (selSec sel), inject r.minutes (selMin sel), inject r.hours (selHour sel), dayDate r sel] :=
  if_neg (ne_true_of_eq_false hchannel)

theorem alarmImage_channel2 {sel : Byte} (r : TimeRecord) (hchannel : selChannel2 sel = true) : alarmImage r sel =
    #v[inject r.minutes (selMin sel), inject r.hours (selHour sel), dayDate r sel, 0x00] := if_pos hchannel

theorem sameExcept_alm (s : State) (a : Vector Byte 4) : SameExcept almRegs s { s with alm := a } := by
  refine ⟨fun r hr => ?_, rfl, rfl⟩
  cases r
  case alm k => exact absurd (by fin_cases k <;> simp [almRegs]) hr
  all_goals rfl

/-- Settles O42: the image of each channel is written out by `alarmImage_channel1` and `alarmImage_channel2`, and its bytes
are valued by `inject_toNat` and `dayDate_toNat`. -/
theorem almencEmitsTheChannelsBytes : Obligations.AlmencEmitsTheChannelsBytes := by
  refine ⟨decode_encode .almenc, fun s => ⟨_, exec_almenc s,
    (sameExcept_alm s (alarmImage s.record s.sel)).trans (sameExcept_set _ .alen _),
    fun hchannel => ?_, fun hchannel => ?_⟩⟩
  · have hlen : (if selChannel2 s.sel then 3 else 4 : Byte) = 4 := if_neg (ne_true_of_eq_false hchannel)
    simp only [alarmImage_channel1 s.record hchannel]
    exact ⟨inject_toNat _ _, inject_toNat _ _, inject_toNat _ _, dayDate_toNat s.record s.sel, hlen⟩
  · have hlen : (if selChannel2 s.sel then 3 else 4 : Byte) = 3 := if_pos hchannel
    simp only [alarmImage_channel2 s.record hchannel]
    exact ⟨inject_toNat _ _, inject_toNat _ _, dayDate_toNat s.record s.sel, rfl, hlen⟩

/-! ### ALMDEC -/

theorem sameExcept_almdec1 (s : State) (seconds minutes hours n : Byte) : SameExcept (timeRegs ++ [.alen]) s
    { s with record := { s.record with seconds := seconds, minutes := minutes, hours := hours }, alen := n } :=
  (((sameExcept_set s (.record .seconds) seconds).trans (sameExcept_set _ (.record .minutes) minutes)).trans
    (sameExcept_set _ (.record .hours) hours)).trans (sameExcept_set _ .alen n)

theorem sameExcept_almdec2 (s : State) (minutes hours n : Byte) : SameExcept [.record .minutes, .record .hours, .alen] s
    { s with record := { s.record with minutes := minutes, hours := hours }, alen := n } :=
  ((sameExcept_set s (.record .minutes) minutes).trans (sameExcept_set _ (.record .hours) hours)).trans
    (sameExcept_set _ .alen n)

/-- Settles O43: each byte ALMDEC stores is a register of `ALM` as it stands; the frames are the stores one by one. -/
theorem almdecCopiesTimeBytesWhole : Obligations.AlmdecCopiesTimeBytesWhole :=
  ⟨decode_encode (.almdec false), decode_encode (.almdec true), fun s =>
    ⟨⟨_, exec_almdec1 s, rfl, rfl, rfl, rfl, sameExcept_almdec1 s _ _ _ _⟩,
      ⟨_, exec_almdec2 s, rfl, rfl, rfl, sameExcept_almdec2 s _ _ _⟩⟩⟩

end Sys2Proof.Machine
end

section
/-! PROOFS. The Formatter (46_formatter R165 to R168). -/

namespace Sys2Proof.Machine

/-! ### The frame of a buffer stored -/

/-- A change confined to the bytes of one buffer, the registers `f` numbers. -/
theorem sameExcept_buffer {n : Nat} {f : Fin n → Reg} {s t : State} (hget : ∀ r, (∀ k, r ≠ f k) → t.get r = s.get r)
    (hpending : t.pending = s.pending) (hreplies : t.replies = s.replies) :
    SameExcept ((List.finRange n).map f) s t :=
  ⟨fun r hr => hget r fun k hk => hr (List.mem_map.2 ⟨k, List.mem_finRange k, hk.symm⟩), hpending, hreplies⟩

theorem sameExcept_tbuf (s : State) (v : Vector Byte 12) :
    SameExcept ((List.finRange 12).map .tbuf) s { s with tbuf := v } := by
  refine sameExcept_buffer (fun r hr => ?_) rfl rfl
  cases r
  case tbuf k => exact absurd rfl (hr k)
  all_goals rfl

theorem sameExcept_dbuf (s : State) (v : Vector Byte 9) :
    SameExcept ((List.finRange 9).map .dbuf) s { s with dbuf := v } := by
  refine sameExcept_buffer (fun r hr => ?_) rfl rfl
  cases r
  case dbuf k => exact absurd rfl (hr k)
  all_goals rfl

theorem sameExcept_nbuf (s : State) (v : Vector Byte 4) :
    SameExcept ((List.finRange 4).map .nbuf) s { s with nbuf := v } := by
  refine sameExcept_buffer (fun r hr => ?_) rfl rfl
  cases r
  case nbuf k => exact absurd rfl (hr k)
  all_goals rfl

/-! ### FMTT -/

theorem timeString_of_12 {r : TimeRecord} (hmode : is12 r.hours = true) : timeString r =
    #v[ascHi (hourBits r.hours), ascLo (hourBits r.hours), charColon, ascHi r.minutes, ascLo r.minutes, charColon,
       ascHi r.seconds, ascLo r.seconds, charSpace, if isPm r.hours then charP else charA, charM, 0x00] := if_pos hmode

theorem timeString_of_24 {r : TimeRecord} (hmode : is12 r.hours = false) : timeString r =
    #v[ascHi (hourBits r.hours), ascLo (hourBits r.hours), charColon, ascHi r.minutes, ascLo r.minutes, charColon,
       ascHi r.seconds, ascLo r.seconds, 0x00, 0x00, 0x00, 0x00] := if_neg (ne_true_of_eq_false hmode)

/-- R166: the mode reaches the first eight characters through the hour bits only. -/
theorem timeString_digits (r : TimeRecord) :
    (timeString r)[0] = ascHi (hourBits r.hours) ∧ (timeString r)[1] = ascLo (hourBits r.hours) ∧
    (timeString r)[2] = charColon ∧ (timeString r)[3] = ascHi r.minutes ∧ (timeString r)[4] = ascLo r.minutes ∧
    (timeString r)[5] = charColon ∧ (timeString r)[6] = ascHi r.seconds ∧ (timeString r)[7] = ascLo r.seconds := by
  cases hmode : is12 r.hours
  case false =>
    rw [timeString_of_24 hmode]
    exact ⟨rfl, rfl, rfl, rfl, rfl, rfl, rfl, rfl⟩
  case true =>
    rw [timeString_of_12 hmode]
    exact ⟨rfl, rfl, rfl, rfl, rfl, rfl, rfl, rfl⟩

/-- Settles O47: the digits are the two characters of `Asc`, of the hour bits alone for the hour, and the mode decides the
last four bytes. -/
theorem fmttRendersTheTime : Obligations.FmttRendersTheTime := by
  refine ⟨decode_encode .fmtt, fun s => ⟨_, exec_fmtt s, sameExcept_tbuf s _, ?_⟩⟩
  obtain ⟨hhourHi, hhourLo, hcolon, hminHi, hminLo, hcolon', hsecHi, hsecLo⟩ := timeString_digits s.record
  refine ⟨?_, hcolon, hminHi ▸ ascHi_toNat _, hminLo ▸ ascLo_toNat _, hcolon', hsecHi ▸ ascHi_toNat _,
    hsecLo ▸ ascLo_toNat _, fun hmode => ?_, fun hmode => ?_⟩
  · rintro h rfl
    rw [← hourBits_eq]
    exact ⟨hhourHi ▸ ascHi_toNat _, hhourLo ▸ ascLo_toNat _⟩
  · simp only [timeString_of_12 hmode]
    exact ⟨rfl, rfl, rfl, rfl⟩
  · simp only [timeString_of_24 hmode]
    exact ⟨rfl, rfl, rfl, rfl⟩

/-! ### FMTD -/

/-- Settles O48: each pair of characters is the `Asc` of one slot, between constant separators. -/
theorem fmtdRendersTheDate : Obligations.FmtdRendersTheDate :=
  ⟨decode_encode .fmtd, fun s => ⟨_, exec_fmtd s, sameExcept_dbuf s _,
    ascHi_toNat s.record.month, ascLo_toNat s.record.month, rfl, ascHi_toNat s.record.day, ascLo_toNat s.record.day, rfl,
    ascHi_toNat s.record.year, ascLo_toNat s.record.year, rfl⟩⟩

/-! ### FMTN -/

/-- R165: every row of the table ends with a NUL, and so does the entry for a value without a row. -/
theorem dayName_nul (dow : Byte) : (dayName dow)[3] = 0x00 := by
  unfold dayName
  split <;> rfl

/-- R168: a value outside 1 to 7 has no row in the table. -/
theorem dayName_noRow {dow : Byte} (hrow : dow = 0 ∨ 8 ≤ dow.toNat) : dayName dow = #v[0x3F, 0x3F, 0x3F, 0x00] := by
  have hoff : dow.toNat = 0 ∨ 8 ≤ dow.toNat := hrow.imp_left (congrArg BitVec.toNat)
  unfold dayName
  split
  case h_8 => rfl
  all_goals omega

/-- Settles O49: a stored value 1 to 7 picks its own row of the table, and any other byte is `dayName_noRow`. -/
theorem fmtnNamesTheDay : Obligations.FmtnNamesTheDay := by
  refine ⟨decode_encode .fmtn, fun s => ⟨_, exec_fmtn s, sameExcept_nbuf s _, dayName_nul _, ?_⟩⟩
  rintro letters rfl
  generalize s.record.dayOfWeek = dow
  refine ⟨?_, ?_, ?_, ?_, ?_, ?_, ?_, fun hrow => ?_⟩
  case refine_8 => rw [dayName_noRow hrow]; rfl
  all_goals
    rintro rfl
    rfl

end Sys2Proof.Machine
end

section
/-! PROOFS. Nothing faults and nothing is refused: each shared operation of the host port answers a next state
(60_exceptions R180). -/

namespace Sys2Proof.Machine

/-- R180: a command completes whatever its operands hold, by the equation of each command. -/
theorem exists_exec_eq_next (i : Instr) (s : State) : ∃ t, exec i s = .next t := by
  cases i with
  | almdec c =>
    cases c with
    | false => exact ⟨_, exec_almdec1 s⟩
    | true => exact ⟨_, exec_almdec2 s⟩
  | d2b => exact ⟨_, exec_d2b s⟩
  | b2d => exact ⟨_, exec_b2d s⟩
  | b2a => exact ⟨_, exec_b2a s⟩
  | ptime => exact ⟨_, exec_ptime s⟩
  | pdt => exact ⟨_, exec_pdt s⟩
  | setmode w => exact ⟨_, exec_setmode w s⟩
  | dow => exact ⟨_, exec_dow s⟩
  | tosec => exact ⟨_, exec_tosec s⟩
  | adv => exact ⟨_, exec_adv s⟩
  | almenc => exact ⟨_, exec_almenc s⟩
  | fmtt => exact ⟨_, exec_fmtt s⟩
  | fmtd => exact ⟨_, exec_fmtd s⟩
  | fmtn => exact ⟨_, exec_fmtn s⟩

/-- R76, R180: a byte that decodes is executed, and a byte that does not sets ILL; it stops nothing. -/
theorem exists_issueCommand_eq_next (c : Byte) (s : State) : ∃ t, issueCommand c s = .next t := by
  unfold issueCommand
  split
  case h_1 i _ => exact exists_exec_eq_next i (s.withCmd c)
  case h_2 => exact ⟨_, rfl⟩

/-- R56, R57: only a write to `CMD` does more than store its byte or be ignored. -/
theorem exists_serveWrite_eq_next (offset v : Byte) (s : State) : ∃ t, serveWrite offset v s = .next t := by
  unfold serveWrite
  split
  case h_2 => exact exists_issueCommand_eq_next v s
  all_goals exact ⟨_, rfl⟩

theorem exists_serve_eq_next (a : HostAction) (s : State) : ∃ t, serve a s = .next t := by
  cases a with
  | write offset v => exact exists_serveWrite_eq_next offset v s
  | read offset => exact ⟨readByHost offset s, rfl⟩
  | reset => exact ⟨resetBlock s, rfl⟩

/-- Settles O16: with no access left the block idles, and any access is served by `exists_serve_eq_next`. -/
theorem everyStepAnswersANextState : Obligations.EveryStepAnswersANextState := by
  intro s
  unfold step serveNext
  split
  case h_1 => exact ⟨s, rfl⟩
  case h_2 a rest _ => exact exists_serve_eq_next a (s.withPending rest)

end Sys2Proof.Machine
end


section
/-! PROOFS. Decoding a byte and encoding it again (30_encoding R70 to R74). -/

namespace Sys2Proof.Machine

theorem mem_legalCodes_of_decode {c : Byte} {i : Instr} (h : decode c = .ok i) : c ∈ legalCodes := by
  by_contra hc
  rw [decode_of_not_mem_legalCodes hc] at h
  cases h

/-- Settles O12: a byte that decodes is a code, so the byte of some command, and `decode_encode` says of which. -/
theorem decodeAndEncodeAgree : Obligations.DecodeAndEncodeAgree := by
  refine ⟨decode_encode, fun c i hdecode => ?_⟩
  obtain ⟨j, rfl⟩ := exists_encode_eq_of_mem_legalCodes (mem_legalCodes_of_decode hdecode)
  rw [decode_encode, Except.ok.injEq] at hdecode
  rw [hdecode]

end Sys2Proof.Machine
end

section
/-! PROOFS. Legal result registers: every step keeps them (10_state R27, R30 to R32, R35 to R37). -/

namespace Sys2Proof.Machine

/-- Settles O18: every register of the reset state is zero. -/
theorem legalRegistersAtReset : Obligations.LegalRegistersAtReset where
  reserved := by decide
  secs := Nat.zero_le _
  alen := .inl rfl
  count := Nat.zero_le _
  okCount := by decide
  countOk := by decide
  tbufEnd := rfl
  dbufEnd := rfl
  nbufEnd := rfl

/-! ### Accesses that store no result -/

/-- The registers a host may write are none of the result registers. -/
theorem RegistersLegal.storeByHost {s : State} (hs : RegistersLegal s) (r : Reg) (v : Byte) :
    RegistersLegal (storeByHost r v s) := by
  cases hwritable : hostWritable r
  case false => rwa [storeByHost_readOnly v s hwritable]
  case true =>
    rw [storeByHost_writable v s hwritable]
    cases r
    case res0 | res1 | count | alen | secs | status | tbuf | nbuf | dbuf => cases hwritable
    all_goals exact { hs with }

/-- The legal values say nothing of WRAP and ILL. -/
theorem RegistersLegal.withStatus {s : State} (hs : RegistersLegal s) {st : Byte}
    (hok : st.getLsbD 0 = s.status.getLsbD 0) (hreserved : st.extractLsb' 3 5 = s.status.extractLsb' 3 5) :
    RegistersLegal { s with status := st } :=
  { hs with
    reserved := hreserved.trans hs.reserved
    okCount := fun h => hs.okCount (hok.symm.trans h)
    countOk := fun h => hok.trans (hs.countOk h) }

theorem RegistersLegal.illegalCommand {s : State} (hs : RegistersLegal s) : RegistersLegal (illegalCommand s) := by
  obtain ⟨hok, -, -, hreserved⟩ := statusWithIll_bits s.status
  exact hs.withStatus hok hreserved

/-! ### The parses -/

/-- R101: a scan commits at most one group to a slot. -/
theorem scan_cnt_le (s : State) {map : List Slot} (hmap : map ≠ []) : (scan s map).cnt ≤ map.length := by
  have hcount := scanLoop_count s.ibuf.toList (startScan s.record map) hmap
  simp only [startScan, Nat.zero_add] at hcount
  exact hcount ▸ Nat.le_add_right _ _

theorem storeScan_ok (s : State) (st : Scan) (r : TimeRecord) (n : Nat) : (storeScan s st r n).ok = (st.cnt == n) :=
  (statusWithOk_bits s.status _).1

theorem storeScan_count_toNat (s : State) {st : Scan} (r : TimeRecord) (n : Nat) (h : st.cnt ≤ 6) :
    (storeScan s st r n).count.toNat = st.cnt := Nat.mod_eq_of_lt (h.trans_lt (by decide))

/-- A parse for three or for six groups, the only ones there are, leaves `COUNT` in step with OK. -/
theorem RegistersLegal.storeScan {s : State} (hs : RegistersLegal s) {st : Scan} (r : TimeRecord) {n : Nat}
    (hn : n = 3 ∨ n = 6) (hcnt : st.cnt ≤ n) : RegistersLegal (storeScan s st r n) := by
  have hle : st.cnt ≤ 6 := by omega
  have hcount := storeScan_count_toNat s r n hle
  have hok : (Machine.storeScan s st r n).ok = true ↔ st.cnt = n := by rw [storeScan_ok, beq_iff_eq]
  obtain ⟨-, -, -, hreserved⟩ := statusWithOk_bits s.status (st.cnt == n)
  exact { hs with
    reserved := hreserved.trans hs.reserved
    count := hcount.trans_le hle
    okCount := fun h => by
      have hfull := hcount.trans (hok.1 h)
      exact hn.imp (fun e => BitVec.eq_of_toNat_eq (hfull.trans e)) fun e => BitVec.eq_of_toNat_eq (hfull.trans e)
    countOk := fun h => hok.2 (by
      have hsix : st.cnt = 6 := hcount.symm.trans (congrArg BitVec.toNat h)
      omega) }

/-! ### Every command -/

/-- Each command that stores a result stores a legal one; the others store none of the result registers. -/
theorem RegistersLegal.exec {s t : State} (hs : RegistersLegal s) {i : Instr} (h : exec i s = .next t) :
    RegistersLegal t := by
  cases i with
  | ptime => cases h; exact hs.storeScan _ (.inl rfl) (scan_cnt_le s (map := timeMap) (by decide))
  | pdt => cases h; exact hs.storeScan _ (.inr rfl) (scan_cnt_le s (map := dateTimeMap) (by decide))
  | tosec => cases h; exact { hs with secs := (ofNat_secondsOf_toNat s.record).trans_le (secondsOf_le s.record) }
  | adv =>
    cases h
    obtain ⟨hok, -, -, hreserved⟩ :=
      statusWithWrap_bits s.status (decide (secondsOf s.record + s.delta.toNat ≥ Config.secondsPerDay))
    exact { hs.withStatus hok hreserved with }
  | almenc =>
    cases h
    have hlen : ∀ c : Bool, (if c then 3 else 4 : Byte) = 3 ∨ (if c then 3 else 4 : Byte) = 4 := by decide
    exact { hs with alen := .inr (.inr (hlen (selChannel2 s.sel))) }
  | almdec c =>
    cases c with
    | false => cases h; exact { hs with alen := .inr (.inr (.inl rfl)) }
    | true => cases h; exact { hs with alen := .inr (.inl rfl) }
  | fmtt =>
    cases h
    have hend : (timeString s.record)[11] = 0 := by
      unfold timeString
      dsimp only
      split <;> rfl
    exact { hs with tbufEnd := hend }
  | fmtd => cases h; exact { hs with dbufEnd := rfl }
  | fmtn => cases h; exact { hs with nbufEnd := dayName_nul _ }
  | d2b | b2d | b2a | setmode w | dow => cases h; exact { hs with }

/-! ### Every step -/

theorem RegistersLegal.issueCommand {s t : State} (hs : RegistersLegal s) {c : Byte} (h : issueCommand c s = .next t) :
    RegistersLegal t := by
  have hcmd : RegistersLegal (s.withCmd c) := { hs with }
  obtain ⟨i, -, hexec⟩ | ⟨e, -, rfl⟩ := issueCommand_cases h
  · exact hcmd.exec hexec
  · exact hcmd.illegalCommand

theorem RegistersLegal.serveWrite {s t : State} (hs : RegistersLegal s) {o v : Byte} (h : serveWrite o v s = .next t) :
    RegistersLegal t := by
  obtain ⟨-, rfl⟩ | ⟨-, hissue⟩ | ⟨r, -, -, rfl⟩ := serveWrite_cases h
  · exact hs
  · exact hs.issueCommand hissue
  · exact hs.storeByHost r v

/-- Settles O17: by what one step can do, each access keeps the registers legal. -/
theorem legalRegistersAreKept : Obligations.LegalRegistersAreKept := by
  intro s t hs hstep
  obtain ⟨-, rfl⟩ | ⟨a, rest, -, haccess⟩ := step_cases hstep
  · exact hs
  · have hserved : RegistersLegal (s.withPending rest) := { hs with }
    obtain ⟨-, rfl⟩ | ⟨o, -, rfl⟩ | ⟨o, v, -, hwrite⟩ := haccess
    · exact { legalRegistersAtReset with }
    · exact { hserved with }
    · exact hserved.serveWrite hwrite

end Sys2Proof.Machine
end

section
/-! PROOFS. The register space: the map is one to one and shows the whole state (20_memory R50, R51, R56). -/

namespace Sys2Proof.Machine

/-! ### The map of R51, by offset -/

theorem regAt_eq_none_iff : ∀ o : Byte, regAt o = none ↔ reservedOffset o := by
  unfold reservedOffset
  decide +kernel

/-- A register stands at one offset. -/
theorem regOffset_of_regAt {o : Byte} {r : Reg} (h : regAt o = some r) : regOffset r = o := by
  have hmap : ∀ o : Byte, ∀ r ∈ regAt o, regOffset r = o := by decide +kernel
  exact hmap o r h

/-- R41 by kinds of register, R51 by offsets: the same registers are read only. -/
theorem hostWritable_eq_false_iff (r : Reg) : hostWritable r = false ↔ readOnlyOffset (regOffset r) := by
  unfold readOnlyOffset
  cases r
  case record slot => cases slot <;> decide
  case delta k | secs k | alm k | ibuf k | tbuf k | nbuf k | dbuf k => revert k; decide
  all_goals decide

/-- Settles O4: the two directions of the map are `regAt_regOffset` and `regOffset_of_regAt`, the reserved and the read-only
offsets have their own lemmas, and the offsets of the table are as the definition has them. -/
theorem registerMapIsOneToOne : Obligations.RegisterMapIsOneToOne := by
  refine ⟨regAt_regOffset, fun _ _ => regOffset_of_regAt, regAt_eq_none_iff, ?_, State.peek_regOffset,
    rfl, rfl, rfl, rfl, rfl, rfl, rfl, rfl, rfl, rfl, rfl, rfl, rfl, rfl, rfl, rfl, rfl,
    by decide, by decide, by decide, by decide⟩
  intro o r h
  rw [hostWritable_eq_false_iff, regOffset_of_regAt h]

/-- Settles O52: each offset of the table is its register's own, where `State.peek_regOffset` reads the register. -/
theorem namedRegistersReadAtTheirOffsets : Obligations.NamedRegistersReadAtTheirOffsets := by
  intro s
  exact ⟨rfl, rfl, rfl, rfl, rfl, rfl, rfl, rfl, rfl, rfl, rfl, rfl, rfl, rfl, rfl, rfl, rfl,
    fun k => s.peek_regOffset (.alm k), fun k => s.peek_regOffset (.ibuf k), fun k => s.peek_regOffset (.tbuf k),
    fun k => s.peek_regOffset (.nbuf k), fun k => s.peek_regOffset (.dbuf k)⟩

/-! ### The registers are the state -/

theorem word_eq_of_wordByte {v w : Word32} (h : ∀ k, wordByte v k = wordByte w k) : v = w := by
  apply BitVec.eq_of_toNat_eq
  rw [toNat_eq_sum_wordByte v, toNat_eq_sum_wordByte w, h 0, h 1, h 2, h 3]

theorem vector_eq_of_get {n : Nat} {v w : Vector Byte n} (h : ∀ k : Fin n, v.get k = w.get k) : v = w :=
  Vector.ext fun k hk => h ⟨k, hk⟩

theorem TimeRecord.eq_of_get {r r' : TimeRecord} (h : ∀ slot, r.get slot = r'.get slot) : r = r' := by
  cases r
  cases r'
  exact (TimeRecord.mk.injEq ..).mpr ⟨h .seconds, h .minutes, h .hours, h .dayOfWeek, h .day, h .month, h .year⟩

/-- R20, R39: two states equal in every register and on the host's side are equal. -/
theorem State.eq_of_get {s t : State} (h : ∀ r, s.get r = t.get r) (hpending : s.pending = t.pending)
    (hreplies : s.replies = t.replies) : s = t := by
  have hrecord : s.record = t.record := TimeRecord.eq_of_get fun slot => h (.record slot)
  have hdelta : s.delta = t.delta := word_eq_of_wordByte fun k => h (.delta k)
  have hsecs : s.secs = t.secs := word_eq_of_wordByte fun k => h (.secs k)
  have halm : s.alm = t.alm := vector_eq_of_get fun k => h (.alm k)
  have hibuf : s.ibuf = t.ibuf := vector_eq_of_get fun k => h (.ibuf k)
  have htbuf : s.tbuf = t.tbuf := vector_eq_of_get fun k => h (.tbuf k)
  have hdbuf : s.dbuf = t.dbuf := vector_eq_of_get fun k => h (.dbuf k)
  have hnbuf : s.nbuf = t.nbuf := vector_eq_of_get fun k => h (.nbuf k)
  cases s
  cases t
  exact (State.mk.injEq ..).mpr ⟨hrecord, h .a0, h .a1, h .a2, h .res0, h .res1, hdelta, hsecs, h .sel, halm, h .alen,
    h .count, h .status, h .cmd, hibuf, htbuf, hdbuf, hnbuf, hpending, hreplies⟩

/-- Settles O6: every register has an offset, so states that read alike are equal register by register. -/
theorem registerSpaceShowsTheWholeState : Obligations.RegisterSpaceShowsTheWholeState := by
  intro s t hpeek hpending hreplies
  refine State.eq_of_get (fun r => ?_) hpending hreplies
  rw [← s.peek_regOffset r, hpeek, t.peek_regOffset]

end Sys2Proof.Machine
end

section
/-! PROOFS. The flags of `STATUS` under every command (10_state R32, 30_encoding R75). -/

namespace Sys2Proof.Machine

/-- R32: OK belongs to the two parses, WRAP to ADV, and no command writes ILL or the reserved bits. -/
theorem exec_flags {i : Instr} {s t : State} (h : exec i s = .next t) :
    (i ≠ .ptime → i ≠ .pdt → t.ok = s.ok) ∧ (i ≠ .adv → t.wrap = s.wrap) ∧ t.ill = s.ill ∧
    statusReserved t = statusReserved s := by
  unfold State.ok State.wrap State.ill statusReserved
  obtain ⟨v, hi, hst⟩ | ⟨v, rfl, hst⟩ | hst := exec_status h
  · obtain ⟨-, hwrap, hill, hreserved⟩ := statusWithOk_bits s.status v
    rw [hst]
    exact ⟨fun hptime hpdt => absurd hi (not_or.2 ⟨hptime, hpdt⟩), fun _ => hwrap, hill, hreserved⟩
  · obtain ⟨hok, -, hill, hreserved⟩ := statusWithWrap_bits s.status v
    rw [hst]
    exact ⟨fun _ _ => hok, fun hadv => absurd rfl hadv, hill, hreserved⟩
  · rw [hst]
    exact ⟨fun _ _ => rfl, fun _ => rfl, rfl, rfl⟩

/-- Settles O21: every command completes, and `exec_flags` says which bits it leaves. -/
theorem flagsAreWrittenByTheirOwnersOnly : Obligations.FlagsAreWrittenByTheirOwnersOnly := by
  intro i s
  obtain ⟨t, ht⟩ := exists_exec_eq_next i s
  exact ⟨t, ht, exec_flags ht⟩

end Sys2Proof.Machine
end

section
/-! PROOFS. The host port: one access served (10_state R33, R41; 20_memory R56 to R58; 70_reset_and_hazards R200). -/

namespace Sys2Proof.Machine

/-! ### One step, by the access served -/

theorem step_of_pending {s : State} {a : HostAction} {rest : List HostAction} (h : s.pending = a :: rest) :
    step s = serve a (s.withPending rest) := by
  simp [step, serveNext, h]

theorem serveWrite_of_reserved {o : Byte} (h : regAt o = none) (v : Byte) (s : State) : serveWrite o v s = .next s := by
  simp [serveWrite, h]

theorem serveWrite_of_ne_cmd {o : Byte} {r : Reg} (h : regAt o = some r) (hr : r ≠ .cmd) (v : Byte) (s : State) :
    serveWrite o v s = .next (storeByHost r v s) := by
  simp [serveWrite, h]

theorem issueCommand_of_decode {c : Byte} {i : Instr} (h : decode c = .ok i) (s : State) :
    issueCommand c s = exec i (s.withCmd c) := by
  simp [issueCommand, h]

theorem issueCommand_of_illegal {c : Byte} (h : c ∉ legalCodes) (s : State) :
    issueCommand c s = .next (illegalCommand (s.withCmd c)) := by
  simp [issueCommand, decode_of_not_mem_legalCodes h]

/-- A write to 0x1F is a command. -/
theorem step_of_pending_cmd {s : State} {c : Byte} {rest : List HostAction} (h : s.pending = .write 0x1F c :: rest) :
    step s = issueCommand c (s.withPending rest) := step_of_pending h

/-! ### The three kinds of access -/

/-- Settles O10: an empty list of accesses is the first case of `serveNext`. -/
theorem idleBlockStays : Obligations.IdleBlockStays := by
  intro s hpending
  simp [step, serveNext, hpending]

/-- Settles O8: a read appends to the replies, which are no register. -/
theorem hostReadReturnsTheByteAndChangesNothing : Obligations.HostReadReturnsTheByteAndChangesNothing := by
  intro s o rest hpending
  have hpeek : (s.withPending rest).peek o = s.peek o := by simp [State.peek]
  refine ⟨readByHost o (s.withPending rest), step_of_pending hpending, ?_, fun r => ?_, rfl⟩
  · rw [readByHost_replies, hpeek, withPending_replies]
  · rw [readByHost_get, withPending_get]

/-- Settles O7: a reserved offset names no register, and what a read-only one names the host cannot write. -/
theorem reservedAndReadOnlyOffsetsIgnoreWrites : Obligations.ReservedAndReadOnlyOffsetsIgnoreWrites := by
  refine ⟨fun s o ho => ?_, fun s o v rest ho hpending => ?_⟩
  · simp [State.peek, (regAt_eq_none_iff o).2 ho]
  · rw [step_of_pending hpending]
    cases hreg : regAt o with
    | none => exact serveWrite_of_reserved hreg v _
    | some r =>
      have hreserved : ¬ reservedOffset o := by simp [← regAt_eq_none_iff, hreg]
      have hwritable : hostWritable r = false := by
        rw [hostWritable_eq_false_iff, regOffset_of_regAt hreg]
        exact ho.resolve_left hreserved
      have hcmd : r ≠ .cmd := by
        rintro rfl
        cases hwritable
      exact (serveWrite_of_ne_cmd hreg hcmd v _).trans (congrArg _ (storeByHost_readOnly v _ hwritable))

/-- A register stored shows at its own offset and at no other. -/
theorem State.peek_set {o : Byte} {r : Reg} (hreg : regAt o = some r) (s : State) (v : Byte) (o' : Byte) :
    (s.set r v).peek o' = if o' = o then v else s.peek o' := by
  unfold State.peek
  cases hreg' : regAt o' with
  | none =>
    have hne : o' ≠ o := by
      rintro rfl
      simp [hreg] at hreg'
    simp [hne]
  | some r' =>
    by_cases hr : r' = r
    · subst hr
      have heq : o' = o := (regOffset_of_regAt hreg').symm.trans (regOffset_of_regAt hreg)
      simp [heq]
    · have hne : o' ≠ o := by
        rintro rfl
        exact hr (Option.some.inj (hreg'.symm.trans hreg))
      simp [hne, s.get_set_other v hr]

/-- Settles O9: the offset names a register other than `CMD` that the host may write, and `State.peek_set` says what the
store changes. -/
theorem hostWriteStoresExactlyOneByte : Obligations.HostWriteStoresExactlyOneByte := by
  intro s o v rest hreserved hreadOnly hne hpending
  obtain ⟨r, hreg⟩ := Option.ne_none_iff_exists'.1 (mt (regAt_eq_none_iff o).1 hreserved)
  have hcmd : r ≠ .cmd := by
    rintro rfl
    exact hne ((regAt_cmd o).1 hreg)
  have hwritable : hostWritable r = true := by
    rw [← Bool.not_eq_false, hostWritable_eq_false_iff, regOffset_of_regAt hreg]
    exact hreadOnly
  have hstep : step s = .next ((s.withPending rest).set r v) := by
    rw [step_of_pending hpending, ← storeByHost_writable v _ hwritable]
    exact serveWrite_of_ne_cmd hreg hcmd v _
  have hpeek (o' : Byte) : (s.withPending rest).peek o' = s.peek o' := by simp [State.peek]
  refine ⟨_, hstep, ?_, fun o' ho' => ?_, by simp, by simp⟩
  · rw [State.peek_set hreg, if_pos rfl]
  · rw [State.peek_set hreg, if_neg ho', hpeek]

/-! ### Commands -/

/-- Settles O13: the write is a command, and the byte decodes. -/
theorem stepRunsTheDecodedCommand : Obligations.StepRunsTheDecodedCommand := by
  intro s c i rest hpending hdecode
  exact (step_of_pending_cmd hpending).trans (issueCommand_of_decode hdecode _)

/-- Settles O14: a byte outside the codes is answered by `illegalCommand` alone, which sets the one flag. -/
theorem illegalCommandSetsOnlyIll : Obligations.IllegalCommandSetsOnlyIll := by
  intro s c rest hpending hc
  obtain ⟨hok, hwrap, hill, hreserved⟩ := statusWithIll_bits s.status
  refine ⟨_, (step_of_pending_cmd hpending).trans (issueCommand_of_illegal hc _), rfl, hill, hok, hwrap, hreserved,
    fun r hcmd hstatus => ?_, rfl, rfl⟩
  rw [illegalCommand_get _ hstatus, withCmd_get _ _ hcmd, withPending_get]

/-! ### ILL is cleared by the reset input only -/

/-- R41: the host cannot write `STATUS`. -/
theorem storeByHost_status (r : Reg) (v : Byte) (s : State) : (storeByHost r v s).status = s.status := by
  cases hwritable : hostWritable r
  case false => rw [storeByHost_readOnly v s hwritable]
  case true =>
    have hr : Reg.status ≠ r := by
      rintro rfl
      cases hwritable
    rw [storeByHost_writable v s hwritable]
    exact s.get_set_other v hr

theorem serveWrite_ill {o v : Byte} {s t : State} (h : serveWrite o v s = .next t) (hs : s.ill = true) :
    t.ill = true := by
  obtain ⟨-, rfl⟩ | ⟨-, hissue⟩ | ⟨r, -, -, rfl⟩ := serveWrite_cases h
  · exact hs
  · obtain ⟨i, -, hexec⟩ | ⟨e, -, rfl⟩ := issueCommand_cases hissue
    · obtain ⟨-, -, hill, -⟩ := exec_flags hexec
      exact hill.trans hs
    · obtain ⟨-, -, hill, -⟩ := statusWithIll_bits s.status
      exact hill
  · rw [State.ill, storeByHost_status]
    exact hs

/-- Settles O2: the reset input leaves `State.reset` but for the host's side; a step that serves anything else keeps ILL. -/
theorem resetInputClearsAllAndAloneClearsIll : Obligations.ResetInputClearsAllAndAloneClearsIll := by
  refine ⟨fun s rest hpending => ⟨_, step_of_pending hpending, fun r => ?_, rfl, rfl⟩, fun s t hs hstep ht => ?_⟩
  · rw [resetBlock_get, State.get_reset]
  · obtain ⟨-, rfl⟩ | ⟨a, rest, hpending, ⟨rfl, -⟩ | ⟨o, -, rfl⟩ | ⟨o, v, -, hwrite⟩⟩ := step_cases hstep
    · exact absurd hs (by simp [ht])
    · exact ⟨rest, hpending⟩
    · exact absurd (ht.symm.trans hs) Bool.false_ne_true
    · exact absurd (ht.symm.trans (serveWrite_ill hwrite hs)) Bool.false_ne_true

/-! ### The domains at reset -/

/-- Settles O3: the reset record has a valid time and hour, no valid record, and no day of week, day or month. -/
theorem resetRecordSuitsOnlyTimeCommands : Obligations.ResetRecordSuitsOnlyTimeCommands := by
  have htime : validTime State.reset.record = true := by decide
  have hrecord : validRecord State.reset.record = false := validRecord_eq_false_of_dayOfWeek_eq_zero rfl
  obtain ⟨-, -, hhours⟩ := (validTime_iff _).1 htime
  exact ⟨htime, htime, htime, fun _ => hhours, hrecord, by decide, by decide⟩

/-! ### The action language -/

theorem length_loadString (start : Nat) (chars : List Byte) : (loadString start chars).length = chars.length + 1 := by
  induction chars generalizing start with
  | nil => rfl
  | cons c rest ih => rw [loadString, List.length_cons, ih, List.length_cons]

/-- Within the buffer, the offset of `IBUF[k]` does not wrap. -/
theorem writeReg_ibuf {k : Nat} (hk : k < 32) (v : Byte) :
    writeReg (.ibuf (Fin.ofNat 32 k)) v = .write (BitVec.ofNat 8 (0x20 + k)) v := by
  simp [writeReg, regOffset, Nat.mod_eq_of_lt hk]

/-- R78: character `k` of the string, or the NUL after the last, is written `k` places on. -/
theorem getElem?_loadString {start : Nat} {chars : List Byte} (h : start + chars.length < 32) {k : Nat}
    (hk : k ≤ chars.length) :
    (loadString start chars)[k]? = some (.write (BitVec.ofNat 8 (0x20 + (start + k))) (chars.getD k 0x00)) := by
  induction chars generalizing start k with
  | nil =>
    obtain rfl := Nat.le_zero.1 hk
    exact congrArg some (writeReg_ibuf h 0x00)
  | cons c rest ih =>
    cases k with
    | zero => exact congrArg some (writeReg_ibuf (by omega) c)
    | succ k =>
      rw [List.length_cons] at h hk
      rw [loadString, List.getElem?_cons_succ, ih (by omega) (by omega), List.getD_cons_succ]
      congr 4
      omega

/-- Settles O15: each expansion is its list as it stands, and a string's is `loadString` from the start of `IBUF`. -/
theorem pseudoActionsExpandToTheirAccesses : Obligations.PseudoActionsExpandToTheirAccesses := by
  refine ⟨fun _ _ => rfl, fun _ => rfl, fun _ => rfl, rfl, rfl, rfl, rfl, fun _ _ _ _ _ _ _ => rfl, fun _ _ _ => rfl,
    fun _ => rfl, rfl, fun _ _ _ _ => rfl, fun chars hwell => ⟨length_loadString 0 chars, fun k hk => ?_⟩⟩
  have hlen : chars.length ≤ 31 := of_decide_eq_true hwell
  have hget := getElem?_loadString (start := 0) (by omega) hk
  rwa [Nat.zero_add] at hget

end Sys2Proof.Machine
end

section
/-! PROOFS. The BCD round trips (40_bcd_codec R93). -/

namespace Sys2Proof.Machine

theorem isBcd_iff (b : Byte) : isBcd b = true ↔ b.toNat / 16 ≤ 9 ∧ b.toNat % 16 ≤ 9 := by
  simp [isBcd, hiNibble_eq, loNibble_eq]

theorem dec_le_of_isBcd {b : Byte} (hb : isBcd b = true) : dec b ≤ 99 := by
  obtain ⟨htens, hunits⟩ := (isBcd_iff b).1 hb
  rw [dec_eq]
  omega

/-- R93: two decimal digits come back from their number. -/
theorem bcd_dec {b : Byte} (hb : isBcd b = true) : bcd (dec b) = b := by
  have hle := dec_le_of_isBcd hb
  obtain ⟨htens, hunits⟩ := (isBcd_iff b).1 hb
  apply BitVec.eq_of_toNat_eq
  rw [bcd_toNat_of_lt (by omega), dec_eq]
  omega

/-- Settles O26: the functions by `bcd_dec` and `dec_bcd`, and the commands by what each stores in `RES0`. -/
theorem bcdRoundTripHoldsOnTheDomain : Obligations.BcdRoundTripHoldsOnTheDomain := by
  refine ⟨fun b => bcd_dec, fun n hn => ⟨dec_bcd (by omega), isBcd_bcd (by omega)⟩, fun s hs => ?_, by decide⟩
  refine ⟨_, _, exec_b2d s, exec_d2b _, ?_⟩
  calc bcd (BitVec.ofNat 8 (dec s.a0)).toNat = bcd (dec s.a0) := by rw [ofNat_dec_toNat]
    _ = s.a0 := bcd_dec hs

end Sys2Proof.Machine
end

section
/-! PROOFS. SETMODE and the hour of the day (42_mode_converter R122, R123; 44_time_arithmetic R141). -/

namespace Sys2Proof.Machine

/-- R141: the valid hours bytes of a mode are the encodings of their own hours, by the 256 cases. -/
theorem encodeHour_timeOfDayHour : ∀ {b : Byte}, validHourByte b = true →
    encodeHour (timeOfDayHour b) (is12 b) = b := by decide +kernel

theorem timeOfDayHour_le_of_12 {b : Byte} (hmode : is12 b = true) : timeOfDayHour b ≤ 37 := by
  have hhour := dec_and_1f_le b
  rw [timeOfDayHour_of_12 hmode]
  split_ifs <;> omega

/-- Settles O37: the law is `encodeHour_timeOfDayHour`, and each bound has its lemma. -/
theorem encodeHourInvertsTimeOfDayHour : Obligations.EncodeHourInvertsTimeOfDayHour := fun b =>
  ⟨fun hb => ⟨encodeHour_timeOfDayHour hb, timeOfDayHour_le_of_validHourByte hb⟩, timeOfDayHour_le b,
    timeOfDayHour_le_of_12⟩

theorem hour_range_of_12 {b : Byte} (hb : validHourByte b = true) (hmode : is12 b = true) :
    1 ≤ hour b ∧ hour b ≤ 12 := by
  obtain ⟨-, hrange⟩ := (Bool.and_eq_true _ _).mp hb
  simpa [hmode] using hrange

/-- On the domain SETMODE's `mod 12` and TOSEC's "12 maps to 0" agree (R124). -/
theorem hourTo24_eq_timeOfDayHour {b : Byte} (hb : validHourByte b = true) (hmode : is12 b = true) :
    hourTo24 b = timeOfDayHour b := by
  have hhour := hour_range_of_12 hb hmode
  rw [hourTo24_of_12 hmode, timeOfDayHour_of_12 hmode, ← hour_of_12 hmode]
  split_ifs <;> omega

/-- R120, R123: on a valid byte SETMODE is the hour of the day encoded in the wanted mode. -/
theorem convertMode_eq_encodeHour {b : Byte} (hb : validHourByte b = true) (w : Bool) :
    convertMode w b = encodeHour (timeOfDayHour b) w := by
  by_cases hsame : is12 b = w
  · rw [convertMode_of_mode_eq hsame, ← hsame, encodeHour_timeOfDayHour hb]
  · cases w with
    | true =>
      have hmode : is12 b = false := Bool.not_eq_true _ ▸ hsame
      rw [convertMode_to_12 hmode, timeOfDayHour_of_24 hmode]
      rfl
    | false =>
      have hmode : is12 b = true := Bool.not_eq_false _ ▸ hsame
      rw [convertMode_to_24 hmode, hourTo24_eq_timeOfDayHour hb hmode]
      rfl

/-- The converted byte is a valid one of the wanted mode for the same hour of the day. -/
theorem convertMode_spec {b : Byte} (hb : validHourByte b = true) (w : Bool) :
    validHourByte (convertMode w b) = true ∧ timeOfDayHour (convertMode w b) = timeOfDayHour b ∧
    is12 (convertMode w b) = w := by
  rw [convertMode_eq_encodeHour hb w]
  exact encodeHour_spec ((timeOfDayHour_le_of_validHourByte hb).trans_lt (by decide)) w

/-- R122: back in the byte's own mode, the same hour has the same encoding. -/
theorem convertMode_convertMode {b : Byte} (hb : validHourByte b = true) (w : Bool) :
    convertMode (is12 b) (convertMode w b) = b := by
  obtain ⟨hvalid, hhour, -⟩ := convertMode_spec hb w
  rw [convertMode_eq_encodeHour hvalid, hhour, encodeHour_timeOfDayHour hb]

/-- Settles O34: SETMODE changes the hours byte alone, which `convertMode_convertMode` brings back. -/
theorem modeRoundTripReproducesTheHour : Obligations.ModeRoundTripReproducesTheHour := by
  refine ⟨fun w s hs hmode => ⟨_, _, exec_setmode w s, exec_setmode (!w) _, ?_⟩, fun s hs => ?_⟩
  · have hback : convertMode (!w) (convertMode w s.record.hours) = s.record.hours :=
      hmode ▸ convertMode_convertMode hs w
    simp only [hback]
  · have hthere : convertMode true s.record.hours = 0x65 := by rw [hs]; decide
    have hback : convertMode false 0x65 = 0x17 := by decide
    refine ⟨_, _, exec_setmode true s, hthere, exec_setmode false _, ?_⟩
    exact (congrArg (convertMode false) hthere).trans hback

/-- Settles O35: the hour of the day is `convertMode_spec`'s, and `secondsOf` reads the hours byte through it alone. -/
theorem setmodeKeepsTheTimeOfDay : Obligations.SetmodeKeepsTheTimeOfDay := by
  intro w s hs
  obtain ⟨-, hhour, -⟩ := convertMode_spec hs w
  refine ⟨_, _, _, exec_setmode w s, hhour, exec_tosec s, exec_tosec _, congrArg (BitVec.ofNat 32) ?_⟩
  simp only [secondsOf, hhour]

/-- Settles O22: SETMODE keeps the hours byte valid and the two other slots as they are; ADV encodes a second of the day. -/
theorem inPlaceCommandsKeepAValidTime : Obligations.InPlaceCommandsKeepAValidTime := by
  intro s hs
  refine ⟨fun w => ⟨_, exec_setmode w s, ?_⟩,
    ⟨_, exec_adv s, validTime_withTimeOfDay s.record _ (Nat.mod_lt _ (by decide))⟩⟩
  obtain ⟨hseconds, hminutes, hhours⟩ := (validTime_iff _).1 hs
  obtain ⟨hconverted, -, -⟩ := convertMode_spec hhours w
  exact (validTime_iff _).2 ⟨hseconds, hminutes, hconverted⟩

end Sys2Proof.Machine
end

section
/-! PROOFS. A valid time as its seconds, and the laws of ADV (44_time_arithmetic R142, R143). -/

namespace Sys2Proof.Machine

/-- The three slots of a valid time are the encoding of its own seconds in its own mode. -/
theorem slots_of_validTime {r : TimeRecord} (hr : validTime r = true) :
    r.seconds = bcd (secondsOf r % 60) ∧ r.minutes = bcd (secondsOf r / 60 % 60) ∧
    r.hours = encodeHour (secondsOf r / 3600) (is12 r.hours) := by
  obtain ⟨⟨hbcdSeconds, hseconds⟩, ⟨hbcdMinutes, hminutes⟩, hhours⟩ := (validTime_iff r).1 hr
  have hsec : secondsOf r % 60 = dec r.seconds := by unfold secondsOf; omega
  have hmin : secondsOf r / 60 % 60 = dec r.minutes := by unfold secondsOf; omega
  have hhour : secondsOf r / 3600 = timeOfDayHour r.hours := by unfold secondsOf; omega
  rw [hsec, hmin, hhour]
  exact ⟨(bcd_dec hbcdSeconds).symm, (bcd_dec hbcdMinutes).symm, (encodeHour_timeOfDayHour hhours).symm⟩

/-- The record ADV leaves (R142). -/
def advanced (r : TimeRecord) (d : Nat) : TimeRecord :=
  withTimeOfDay r (is12 r.hours) ((secondsOf r + d) % 86400)

theorem exec_adv_eq_advanced (s : State) : exec .adv s = .next { s with
    record := advanced s.record s.delta.toNat
    status := statusWithWrap s.status (decide (86400 ≤ secondsOf s.record + s.delta.toNat)) } := rfl

/-- A valid record is its own encoding, so advancing it by nothing gives it back. -/
theorem advanced_zero {r : TimeRecord} (hr : validTime r = true) : advanced r 0 = r := by
  obtain ⟨hseconds, hminutes, hhours⟩ := slots_of_validTime hr
  have hday : (secondsOf r + 0) % 86400 = secondsOf r := by
    have := secondsOf_le_of_validTime hr
    omega
  rw [advanced, hday, withTimeOfDay, ← hseconds, ← hminutes, ← hhours]

/-- Settles O40: both times are the encoding of the same seconds in the same mode; and with nothing added the sum is below
a day, so ADV encodes the record again and clears WRAP. -/
theorem validTimeIsItsSecondsAndMode : Obligations.ValidTimeIsItsSecondsAndMode := by
  refine ⟨fun r1 r2 h1 h2 hmode hsum => ?_, fun s hs hdelta => ?_⟩
  · obtain ⟨hseconds, hminutes, hhours⟩ := slots_of_validTime h1
    obtain ⟨hseconds', hminutes', hhours'⟩ := slots_of_validTime h2
    rw [hsum] at hseconds hminutes hhours
    rw [hmode] at hhours
    exact ⟨hseconds.trans hseconds'.symm, hminutes.trans hminutes'.symm, hhours.trans hhours'.symm⟩
  · have hzero : s.delta.toNat = 0 := by simp [hdelta]
    have hday : ¬ 86400 ≤ secondsOf s.record := by
      have := secondsOf_le_of_validTime hs
      omega
    have hexec := exec_adv_eq_advanced s
    rw [hzero, advanced_zero hs, Nat.add_zero, decide_eq_false hday] at hexec
    obtain ⟨hok, hwrap, hill, hreserved⟩ := statusWithWrap_bits s.status false
    exact ⟨_, hexec, rfl, hwrap, hok, hill, hreserved, sameExcept_set s .status _⟩

theorem is12_withTimeOfDay (r : TimeRecord) (mode : Bool) {t : Nat} (ht : t < 86400) :
    is12 (withTimeOfDay r mode t).hours = mode := by
  obtain ⟨-, -, hmode⟩ := encodeHour_spec (h := t / 3600) (by omega) mode
  exact hmode

/-- R143: advancing twice is advancing once by the sum, whatever the record. -/
theorem advanced_advanced (r : TimeRecord) (d1 d2 : Nat) : advanced (advanced r d1) d2 = advanced r (d1 + d2) := by
  have hlt : (secondsOf r + d1) % 86400 < 86400 := Nat.mod_lt _ (by decide)
  have hmode : is12 (advanced r d1).hours = is12 r.hours := is12_withTimeOfDay r _ hlt
  have hseconds : secondsOf (advanced r d1) = (secondsOf r + d1) % 86400 := secondsOf_withTimeOfDay r _ hlt
  calc advanced (advanced r d1) d2
      = withTimeOfDay r (is12 (advanced r d1).hours) ((secondsOf (advanced r d1) + d2) % 86400) := rfl
    _ = advanced r (d1 + d2) := by rw [hmode, hseconds, Nat.mod_add_mod, Nat.add_assoc, advanced]

/-- Settles O41: the first and the third law are what `advAddsModuloADay` says of the sum; two advances are one by
`advanced_advanced`. -/
theorem advanceLawsHold : Obligations.AdvanceLawsHold := by
  obtain ⟨-, hadv⟩ := advAddsModuloADay
  refine ⟨fun s hs => ?_, fun s d1 d2 hs hfits => ?_, fun s hdelta hseconds hminutes hhours => ?_⟩
  · obtain ⟨t, ht, -, hsum, -, hwrap, hmode, -⟩ := hadv s
    have hsecs : (BitVec.ofNat 32 (secondsOf s.record)).toNat = secondsOf s.record := ofNat_secondsOf_toNat s.record
    refine ⟨_, t, _, exec_tosec s, ht, exec_tosec t, ?_, ?_, hmode⟩
    · rw [hsecs, ← hsum]
      exact ofNat_secondsOf_toNat t.record
    · rw [hsecs]
      exact hwrap
  · have hsum : (d1 + d2).toNat = d1.toNat + d2.toNat := BitVec.toNat_add_of_lt hfits
    refine ⟨_, _, _, exec_adv_eq_advanced _, exec_adv_eq_advanced _, exec_adv_eq_advanced _, ?_⟩
    calc advanced (advanced s.record d1.toNat) d2.toNat = advanced s.record (d1.toNat + d2.toNat) :=
          advanced_advanced s.record _ _
      _ = advanced s.record (d1 + d2).toNat := by rw [hsum]
  · obtain ⟨t, ht, hvalid, hsum, -, hwrap, hmode, -⟩ := hadv s
    have hhour : timeOfDayHour s.record.hours = 0 := by
      obtain h | h := hhours <;> rw [h] <;> decide
    have hzero : secondsOf s.record = 0 := by
      rw [secondsOf, hseconds, hminutes, hhour]
      decide
    rw [hzero, Nat.zero_add] at hsum hwrap
    refine ⟨t, ht, hsum.trans (Nat.mod_eq_of_lt (by omega)), hmode, hvalid, ?_⟩
    rw [← Bool.not_eq_true, hwrap]
    omega

end Sys2Proof.Machine
end

section
/-! PROOFS. The alarm image read back (45_alarm R156, R158; 20_memory R64). -/

namespace Sys2Proof.Machine

/-! ### The fields of an alarm register byte -/

theorem inject_fields : ∀ (b : Byte) (p : Bool),
    alarmParticipates (inject b p) = p ∧ alarmField (inject b p) = b &&& 0x7F := by decide +kernel

theorem inject_toNat_mod (b : Byte) (p : Bool) : (inject b p).toNat % 128 = b.toNat % 128 := by
  rw [inject_toNat]
  split <;> omega

/-- The discriminator written, the two other fields of the day/date byte stay. -/
theorem discriminator_fields : ∀ (b : Byte) (p : Bool),
    (alarmParticipates (inject b p ||| 1#8 <<< Config.dydtBit) = p ∧
      alarmIsDayOfWeek (inject b p ||| 1#8 <<< Config.dydtBit) = true ∧
      alarmDayDate (inject b p ||| 1#8 <<< Config.dydtBit) = b &&& 0x3F) ∧
    (alarmParticipates (inject b p &&& ~~~(1#8 <<< Config.dydtBit)) = p ∧
      alarmIsDayOfWeek (inject b p &&& ~~~(1#8 <<< Config.dydtBit)) = false ∧
      alarmDayDate (inject b p &&& ~~~(1#8 <<< Config.dydtBit)) = b &&& 0x3F) := by decide +kernel

theorem dayDate_fields (r : TimeRecord) (sel : Byte) :
    alarmParticipates (dayDate r sel) = selDate sel ∧ alarmIsDayOfWeek (dayDate r sel) = selDayOfWeek sel ∧
    alarmDayDate (dayDate r sel) = (if selDayOfWeek sel then r.dayOfWeek else r.day) &&& 0x3F := by
  obtain ⟨hday, -⟩ := discriminator_fields r.dayOfWeek (selDate sel)
  obtain ⟨-, hdate⟩ := discriminator_fields r.day (selDate sel)
  unfold dayDate
  cases selDayOfWeek sel
  case false => exact hdate
  case true => exact hday

/-! ### The three laws -/

/-- Settles O44: ALMDEC copies back the bytes ALMENC made with `inject`, which changes bit 7 only. -/
theorem alarmRoundTripReproducesTheTime : Obligations.AlarmRoundTripReproducesTheTime := by
  intro s
  have hpart (b : Byte) (p : Bool) : (inject b p).getLsbD 7 = p := (inject_fields b p).1
  obtain ⟨hdate, -, -⟩ := dayDate_fields s.record s.sel
  cases hchannel : s.sel.getLsbD 7
  case false =>
    refine ⟨_, _, exec_almenc s, exec_almdec1 _, ?_⟩
    simp only [alarmImage_channel1 s.record hchannel]
    exact ⟨inject_toNat_mod _ _, hpart _ _, inject_toNat_mod _ _, hpart _ _,
      fun _ => ⟨inject_toNat_mod _ _, hpart _ _, hdate⟩, fun h => absurd h Bool.false_ne_true⟩
  case true =>
    refine ⟨_, _, exec_almenc s, exec_almdec2 _, ?_⟩
    simp only [alarmImage_channel2 s.record hchannel]
    exact ⟨inject_toNat_mod _ _, hpart _ _, inject_toNat_mod _ _, hpart _ _,
      fun h => absurd h.symm Bool.false_ne_true, fun _ => trivial⟩

/-- Settles O45: the image of each channel is written out, and its bytes are read by `inject_fields` and
`dayDate_fields`. -/
theorem selectorIsRecoveredFromTheImage : Obligations.SelectorIsRecoveredFromTheImage := by
  intro s
  obtain ⟨hsec, hsecField⟩ := inject_fields s.record.seconds (selSec s.sel)
  obtain ⟨hmin, hminField⟩ := inject_fields s.record.minutes (selMin s.sel)
  obtain ⟨hhour, hhourField⟩ := inject_fields s.record.hours (selHour s.sel)
  obtain ⟨hdate, hkind, hvalue⟩ := dayDate_fields s.record s.sel
  refine ⟨_, exec_almenc s, fun hchannel => ?_, fun hchannel => ?_⟩
  · simp only [alarmImage_channel1 s.record hchannel]
    exact ⟨hsec, hmin, hhour, hdate, hkind, hvalue, hsecField, hminField, hhourField⟩
  · simp only [alarmImage_channel2 s.record hchannel]
    exact ⟨hmin, hhour, hdate, hkind, hvalue, hminField, hhourField⟩

/-- Settles O46: the channel decides the base, the image and how many of its bytes `ALEN` lets the write take. -/
theorem alarmWriteCarriesTheChannelsRegisters : Obligations.AlarmWriteCarriesTheChannelsRegisters := by
  intro s
  refine ⟨_, exec_almenc s, fun hchannel => ?_, fun hchannel => ?_⟩
  · have hsel : selChannel2 s.sel = false := hchannel
    simp only [alarmImage_channel1 s.record hsel, writeAlarm, hsel]
    rfl
  · have hsel : selChannel2 s.sel = true := hchannel
    simp only [alarmImage_channel2 s.record hsel, writeAlarm, hsel]
    rfl

end Sys2Proof.Machine
end

section
/-! PROOFS. The Time Record Parser (41_parser R101 to R112). -/

namespace Sys2Proof.Machine

/-! ### What a stored scan changes -/

theorem mem_recordRegs (slot : Slot) : Reg.record slot ∈ recordRegs := by cases slot <;> decide

/-- A stored scan writes `COUNT`, `STATUS` and the slots in which the record given differs. -/
theorem sameExcept_storeScan {ws : List Reg} {s : State} (st : Scan) {r : TimeRecord} (n : Nat)
    (hr : ∀ slot, Reg.record slot ∉ ws → r.get slot = s.record.get slot) :
    SameExcept (ws ++ [.count, .status]) s (storeScan s st r n) := by
  refine ⟨fun reg hreg => ?_, rfl, rfl⟩
  obtain ⟨hws, hrest⟩ := not_or.1 (mt List.mem_append.2 hreg)
  cases reg
  case record slot => exact hr slot hws
  case count | status => exact absurd (by simp) hrest
  all_goals rfl

theorem sameExcept_storeScan_record (s : State) (st : Scan) (r : TimeRecord) (n : Nat) :
    SameExcept (recordRegs ++ [.count, .status]) s (storeScan s st r n) :=
  sameExcept_storeScan st n fun slot hslot => absurd (mem_recordRegs slot) hslot

/-- `COUNT` and OK report the groups committed, and the rest of `STATUS` stays (R32, R101). -/
theorem storeScan_report (s : State) {st : Scan} (r : TimeRecord) {n : Nat} (hn : n ≤ 6) (hcnt : st.cnt ≤ n) :
    (storeScan s st r n).count.toNat ≤ n ∧
    ((storeScan s st r n).ok = true ↔ (storeScan s st r n).count = BitVec.ofNat 8 n) ∧
    (storeScan s st r n).wrap = s.wrap ∧ (storeScan s st r n).ill = s.ill ∧
    statusReserved (storeScan s st r n) = statusReserved s := by
  have hcount := storeScan_count_toNat s r n (hcnt.trans hn)
  have hnat : (BitVec.ofNat 8 n).toNat = n := Nat.mod_eq_of_lt (hn.trans_lt (by decide))
  obtain ⟨-, hwrap, hill, hreserved⟩ := statusWithOk_bits s.status (st.cnt == n)
  refine ⟨hcount.trans_le hcnt, ?_, hwrap, hill, hreserved⟩
  rw [storeScan_ok, beq_iff_eq, ← BitVec.toNat_inj, hcount, hnat]

/-- R110: what is stored when a scan committed too few groups. -/
theorem failedParse_storeScan {map : List Slot} (hmap : map.Nodup) {s : State} {st : Scan} {groups : List (List Byte)}
    {n : Nat} (hn : n ≤ 6) (hlt : groups.length < n) (hcnt : st.cnt = groups.length)
    (hrecord : st.record = commitAll s.record map groups) :
    FailedParse map groups s (storeScan s st st.record n) := by
  have hcount := storeScan_count_toNat s st.record n (st := st) (by omega)
  have hok : (storeScan s st st.record n).ok = false := by
    rw [storeScan_ok, beq_eq_false_iff_ne]
    omega
  obtain ⟨-, -, hwrap, hill, hreserved⟩ := storeScan_report s st.record hn (st := st) (by omega)
  refine ⟨hcount.trans hcnt, hok, hwrap, hill, hreserved, fun k slot g hk hg => ?_, fun slot hslot => ?_,
    sameExcept_storeScan_record s st _ n⟩
  · rw [storeScan_record, hrecord]
    exact commitAll_get_slot hmap s.record hk hg
  · rw [storeScan_record, hrecord]
    exact commitAll_get_other map groups s.record hslot

/-! ### The slots a scan can write -/

/-- What a digit, a commit and a marker keep, the loop keeps. -/
theorem scanLoop_induction {P : Scan → Prop} (hdigit : ∀ st c, P st → P (scanDigit st c))
    (hcommit : ∀ st, P st → P (scanCommit st)) (hmarker : ∀ st c, P st → P (scanMarker st c)) (text : List Byte)
    {st : Scan} (h : P st) : P (scanLoop text st) := by
  have hnul (u : Scan) (hu : P u) : P (scanNul u) := by
    unfold scanNul
    split
    · exact hcommit u hu
    · exact hu
  induction text generalizing st with
  | nil => exact hnul st h
  | cons c rest ih =>
    have hstop := hmarker _ c (hcommit st h)
    unfold scanLoop
    split
    · split
      · exact h
      · exact ih (hdigit st c h)
    · split
      · exact hnul st h
      · dsimp only
        split
        · exact hstop
        · exact ih hstop

/-- A slot that no group of the map goes to keeps its byte, but for the hours slot, which a marker can write (R109). -/
theorem scan_record_get_other (s : State) {map : List Slot} {slot : Slot} (hmap : slot ∉ map) (hhours : slot ≠ .hours) :
    (scan s map).record.get slot = s.record.get slot := by
  have hkeep : slot ∉ (scan s map).left ∧ (scan s map).record.get slot = s.record.get slot := by
    refine scanLoop_induction (P := fun st => slot ∉ st.left ∧ st.record.get slot = s.record.get slot)
      (fun _ _ h => h) (fun st h => ?_) (fun st c h => ?_) s.ibuf.toList ⟨hmap, rfl⟩
    · obtain ⟨hleft, hget⟩ := h
      unfold scanCommit
      split
      · exact ⟨hleft, hget⟩
      · rename_i first rest heq
        rw [heq, List.mem_cons, not_or] at hleft
        exact ⟨hleft.2, (TimeRecord.get_set_other _ _ hleft.1).trans hget⟩
    · unfold scanMarker
      split
      · exact ⟨h.1, (TimeRecord.get_set_other st.record _ hhours).trans h.2⟩
      · exact h
  exact hkeep.2

theorem scan_timeMap_get_other (s : State) (slot : Slot) (hslot : Reg.record slot ∉ timeRegs) :
    (scan s timeMap).record.get slot = s.record.get slot := by
  have hmap : slot ∉ timeMap := by
    cases slot
    case seconds | minutes | hours => exact absurd (by decide) hslot
    all_goals decide
  exact scan_record_get_other s hmap fun h => hmap (h ▸ by decide)

/-- Settles O27: the scan commits at most one group to a slot of the map, and writes no slot outside it. -/
theorem parseReportsItsCount : Obligations.ParseReportsItsCount := by
  intro s
  refine ⟨⟨_, exec_ptime s, ?_⟩, ⟨_, exec_pdt s, ?_⟩⟩
  · obtain ⟨hcount, hok, hwrap, hill, hreserved⟩ := storeScan_report s (scan s timeMap).record (n := 3) (by decide)
      (scan_cnt_le s (map := timeMap) (by decide))
    exact ⟨hcount, hok, hwrap, hill, hreserved, sameExcept_storeScan _ 3 (scan_timeMap_get_other s)⟩
  · obtain ⟨hcount, hok, hwrap, hill, hreserved⟩ := storeScan_report s
      (if (scan s dateTimeMap).cnt = 6 then withDayOfWeek (scan s dateTimeMap).record else (scan s dateTimeMap).record)
      (n := 6) (by decide) (scan_cnt_le s (map := dateTimeMap) (by decide))
    exact ⟨hcount, hok, hwrap, hill, hreserved, sameExcept_storeScan_record s _ _ 6⟩

/-! ### Accepted texts -/

/-- The record with the marker of a terminator in its hours byte (R109). -/
def withMarker (r : TimeRecord) (tail : List Byte) : TimeRecord := { r with hours := r.hours ||| markerBits tail }

/-- A text of the language is scanned to its end: every group is in its slot, and the marker in the hours byte. -/
theorem scan_of_accepted {s : State} {map : List Slot} {body : List (List Byte × Byte)} {g tail : List Byte}
    (hbody : IsBody body) (hg : IsGroup g) (htail : Terminated g tail) (hlen : body.length + 1 = map.length)
    (htext : s.ibuf.toList = joinGroups body ++ g ++ tail) :
    (scan s map).cnt = map.length ∧
    (scan s map).record = withMarker (commitAll s.record map (body.map Prod.fst ++ [g])) tail := by
  obtain ⟨slot, hslot⟩ : ∃ slot, map.drop body.length = [slot] := by
    rw [← List.length_eq_one_iff, List.length_drop]
    omega
  have hscan : scan s map =
      scanLoop (g ++ tail) ⟨commitAll s.record map (body.map Prod.fst), [slot], 0x00, 0, body.length⟩ := by
    rw [scan, startScan, htext, List.append_assoc, scanLoop_body hbody _ _ _ _ (by omega), hslot, Nat.zero_add]
  obtain ⟨-, hcnt, hrecord⟩ := scanLoop_lastGroup (commitAll s.record map (body.map Prod.fst)) slot body.length hg htail
  rw [hscan, hcnt, hrecord, commitAll_append s.record g (by rw [List.length_map, hslot])]
  exact ⟨hlen, rfl⟩

/-! ### Every text that is scanned to its end is of the language -/

/-- A text begins with a group, and goes on with a digit only after two (R103). -/
theorem exists_group_append (text : List Byte) : ∃ g rest, text = g ++ rest ∧ IsGroup g ∧
    (g.length = 2 ∨ ∀ c later, rest = c :: later → isDigit c = false) := by
  have htext : text.takeWhile isDigit ++ text.dropWhile isDigit = text := List.takeWhile_append_dropWhile
  refine ⟨(text.takeWhile isDigit).take 2, (text.takeWhile isDigit).drop 2 ++ text.dropWhile isDigit, ?_,
    ⟨List.length_take_le .., fun c hc => List.mem_takeWhile_imp (List.mem_of_mem_take hc)⟩, ?_⟩
  · rw [← List.append_assoc, List.take_append_drop, htext]
  · by_cases hlen : 2 ≤ (text.takeWhile isDigit).length
    · exact .inl (List.length_take_of_le hlen)
    · refine .inr fun c later hrest => ?_
      rw [List.drop_eq_nil_of_le (by omega), List.nil_append] at hrest
      exact dropWhile_isDigit_head hrest

theorem accepted_one {g tail : List Byte} (hg : IsGroup g) (htail : Terminated g tail) : Accepted 1 (g ++ tail) :=
  ⟨[], g, tail, rfl, rfl, by simp [IsBody], hg, htail⟩

theorem Accepted.cons {n : Nat} {g rest : List Byte} {d : Byte} (h : Accepted n rest) (hg : IsGroup g)
    (hd : isDelimiter d = true) : Accepted (n + 1) (g ++ d :: rest) := by
  obtain ⟨body, last, tail, rfl, rfl, hbody, hlast, htail⟩ := h
  exact ⟨(g, d) :: body, last, tail, by simp [joinGroups], rfl, List.forall_mem_cons.2 ⟨⟨hg, hd⟩, hbody⟩, hlast, htail⟩

/-- A NUL or the end of the buffer fills the one slot left only after a digit (R107, R108). -/
theorem left_eq_nil_of_scanNul {r : TimeRecord} {slot : Slot} {left : List Slot} {g : List Byte} {cnt : Nat}
    (h : (scanNul ⟨r, slot :: left, groupByte g, g.length, cnt⟩).left = []) : g ≠ [] ∧ left = [] := by
  cases g with
  | nil => simp [scanNul] at h
  | cons c g => simpa [scanNul, scanCommit] using h

/-- R112, one half: a scan that leaves no slot has read as many groups as there were, each ended as the language asks. -/
theorem accepted_of_scanLoop {left : List Slot} (hleft : left ≠ []) {text : List Byte} {r : TimeRecord} {cnt : Nat}
    (h : (scanLoop text ⟨r, left, 0x00, 0, cnt⟩).left = []) : Accepted left.length text := by
  induction left generalizing text r cnt with
  | nil => exact absurd rfl hleft
  | cons slot left ih =>
    obtain ⟨g, rest, rfl, hg, hrest⟩ := exists_group_append text
    rw [scanLoop_group ⟨rfl, rfl⟩ hg] at h
    cases rest with
    | nil =>
      obtain ⟨hne, rfl⟩ := left_eq_nil_of_scanNul h
      exact accepted_one hg (.inr ⟨hne, .inl rfl⟩)
    | cons c rest =>
      rcases char_cases c with hc | rfl | hc
      · have hlen : g.length = 2 := hrest.resolve_right fun hno => by simp [hno c rest rfl] at hc
        simp [scanLoop, hc, hlen, Config.maxGroupDigits] at h
      · rw [scanLoop_nul] at h
        obtain ⟨hne, rfl⟩ := left_eq_nil_of_scanNul h
        exact accepted_one hg (.inr ⟨hne, .inr ⟨rest, rfl⟩⟩)
      · cases left with
        | nil => exact accepted_one hg (.inl ⟨c, rest, rfl, hc⟩)
        | cons next left =>
          rw [scanLoop_delimiter _ hc] at h
          simp only [scanCommit, scanMarker, reduceCtorEq, false_and, if_false] at h
          exact (ih (List.cons_ne_nil _ _) h).cons hg hc

theorem scan_cnt_eq_length_iff {s : State} {map : List Slot} (hmap : map ≠ []) :
    (scan s map).cnt = map.length ↔ Accepted map.length s.ibuf.toList := by
  have hcount := scanLoop_count s.ibuf.toList (startScan s.record map) hmap
  simp only [startScan, Nat.zero_add] at hcount
  constructor
  · intro hcnt
    rw [scan, startScan] at hcnt
    exact accepted_of_scanLoop (r := s.record) (cnt := 0) hmap (List.length_eq_zero_iff.1 (by omega))
  · rintro ⟨body, g, tail, htext, hlen, hbody, hg, htail⟩
    obtain ⟨hcnt, -⟩ := scan_of_accepted hbody hg htail hlen htext
    exact hcnt

/-- Settles O28: OK says that every slot of the map was filled, which `scan_cnt_eq_length_iff` says of the language. -/
theorem parserAcceptsExactlyTheLanguage : Obligations.ParserAcceptsExactlyTheLanguage := by
  intro s
  refine ⟨⟨_, exec_ptime s, ?_⟩, ⟨_, exec_pdt s, ?_⟩⟩
  · rw [storeScan_ok, beq_iff_eq]
    exact scan_cnt_eq_length_iff (map := timeMap) (by decide)
  · rw [storeScan_ok, beq_iff_eq]
    exact scan_cnt_eq_length_iff (map := dateTimeMap) (by decide)

/-! ### What the two parses store -/

/-- PTIME on a text of the language. -/
theorem exec_ptime_of_accepted {s : State} {body : List (List Byte × Byte)} {g tail : List Byte} (hbody : IsBody body)
    (hg : IsGroup g) (htail : Terminated g tail) (hlen : body.length = 2)
    (htext : s.ibuf.toList = joinGroups body ++ g ++ tail) :
    ∃ t, exec .ptime s = .next t ∧
      t.record = withMarker (commitAll s.record timeMap (body.map Prod.fst ++ [g])) tail ∧
      t.count = 3 ∧ t.ok = true := by
  obtain ⟨hcnt, hrecord⟩ := scan_of_accepted (map := timeMap) hbody hg htail (by rw [hlen]; rfl) htext
  have hcnt3 : (scan s timeMap).cnt = 3 := hcnt
  refine ⟨_, exec_ptime s, hrecord, ?_, ?_⟩
  · rw [storeScan_count, hcnt3]
    rfl
  · rw [storeScan_ok, hcnt3, beq_self_eq_true]

/-- PDT on a text of the language. -/
theorem exec_pdt_of_accepted {s : State} {body : List (List Byte × Byte)} {g tail : List Byte} (hbody : IsBody body)
    (hg : IsGroup g) (htail : Terminated g tail) (hlen : body.length = 5)
    (htext : s.ibuf.toList = joinGroups body ++ g ++ tail) :
    ∃ t, exec .pdt s = .next t ∧
      t.record = withDayOfWeek (withMarker (commitAll s.record dateTimeMap (body.map Prod.fst ++ [g])) tail) ∧
      t.count = 6 ∧ t.ok = true := by
  obtain ⟨hcnt, hrecord⟩ := scan_of_accepted (map := dateTimeMap) hbody hg htail (by rw [hlen]; rfl) htext
  have hcnt6 : (scan s dateTimeMap).cnt = 6 := hcnt
  refine ⟨_, exec_pdt s, ?_, ?_, ?_⟩
  · rw [storeScan_record, if_pos hcnt6, hrecord]
  · rw [storeScan_count, hcnt6]
    rfl
  · rw [storeScan_ok, hcnt6, beq_self_eq_true]

/-- Settles O29: the three slots of the record `exec_ptime_of_accepted` leaves; the flags and the frame are those of any
parse. -/
theorem ptimeStoresItsThreeGroups : Obligations.PtimeStoresItsThreeGroups := by
  intro s g1 g2 g3 tail d1 d2 h1 h2 h3 hd1 hd2 htail htext
  have hbody : IsBody [(g1, d1), (g2, d2)] := by simp [IsBody, h1, h2, hd1, hd2]
  obtain ⟨t, ht, hrecord, hcount, hok⟩ :=
    exec_ptime_of_accepted hbody h3 htail rfl (htext.trans (by simp [joinGroups]))
  obtain ⟨⟨t', ht', -, -, hwrap, hill, hreserved, hframe⟩, -⟩ := parseReportsItsCount s
  obtain rfl : t = t' := Host.Outcome.next.inj (ht.symm.trans ht')
  refine ⟨t, ht, ?_, ?_, ?_, hcount, hok, hwrap, hill, hreserved, hframe⟩
  all_goals
    rw [hrecord]
    rfl

/-- The byte of a day of week is its number: one decimal digit (R106, R131). -/
theorem bcd_dowF_toNat (month day year : Nat) : (bcd (dowF month day year)).toNat = dowF month day year := by
  have hle := dowF_le month day year
  rw [bcd_toNat_of_lt (by omega)]
  omega

/-- Settles O30: the slots of the record `exec_pdt_of_accepted` leaves, and the formula of R131 with its constants added
up. -/
theorem pdtStoresItsSixGroupsAndTheDay : Obligations.PdtStoresItsSixGroupsAndTheDay := by
  intro s g1 g2 g3 g4 g5 g6 tail d1 d2 d3 d4 d5 h1 h2 h3 h4 h5 h6 hd1 hd2 hd3 hd4 hd5 htail htext
  have hbody : IsBody [(g1, d1), (g2, d2), (g3, d3), (g4, d4), (g5, d5)] := by
    simp [IsBody, h1, h2, h3, h4, h5, hd1, hd2, hd3, hd4, hd5]
  obtain ⟨t, ht, hrecord, hcount, hok⟩ :=
    exec_pdt_of_accepted hbody h6 htail rfl (htext.trans (by simp [joinGroups]))
  obtain ⟨-, t', ht', -, -, hwrap, hill, hreserved, hframe⟩ := parseReportsItsCount s
  obtain rfl : t = t' := Host.Outcome.next.inj (ht.symm.trans ht')
  have hday : t.record.dayOfWeek.toNat = dowF (dec (groupByte g1)) (dec (groupByte g2)) (dec (groupByte g3)) := by
    rw [hrecord]
    exact bcd_dowF_toNat _ _ _
  refine ⟨t, ht, ?_, ?_, ?_, ?_, ?_, ?_, ?_, hcount, hok, hwrap, hill, hreserved, hframe⟩
  case refine_7 => rw [hday, dowF, Config.century]
  all_goals
    rw [hrecord]
    rfl

/-! ### Failed parses -/

theorem exec_ptime_failed {s : State} {groups : List (List Byte)} (hlt : groups.length < 3)
    (hscan : (scan s timeMap).cnt = groups.length ∧ (scan s timeMap).record = commitAll s.record timeMap groups) :
    ∃ t, exec .ptime s = .next t ∧ FailedParse timeMap groups s t := by
  obtain ⟨hcnt, hrecord⟩ := hscan
  exact ⟨_, exec_ptime s, failedParse_storeScan (by decide) (by decide) hlt hcnt hrecord⟩

/-- PDT computes no day of week when a group is missing. -/
theorem exec_pdt_failed {s : State} {groups : List (List Byte)} (hlt : groups.length < 6)
    (hscan : (scan s dateTimeMap).cnt = groups.length ∧
      (scan s dateTimeMap).record = commitAll s.record dateTimeMap groups) :
    ∃ t, exec .pdt s = .next t ∧ FailedParse dateTimeMap groups s t := by
  obtain ⟨hcnt, hrecord⟩ := hscan
  refine ⟨_, exec_pdt s, ?_⟩
  rw [if_neg (by omega)]
  exact failedParse_storeScan (by decide) (by decide) hlt hcnt hrecord

/-- R103: the scan stops with the groups before the third digit. -/
theorem scan_of_thirdDigit {s : State} {map : List Slot} {body : List (List Byte × Byte)} {a b c : Byte}
    {rest : List Byte} (hbody : IsBody body) (ha : isDigit a = true) (hb : isDigit b = true) (hc : isDigit c = true)
    (htext : s.ibuf.toList = joinGroups body ++ a :: b :: c :: rest) (hlt : body.length < map.length) :
    (scan s map).cnt = (body.map Prod.fst).length ∧
    (scan s map).record = commitAll s.record map (body.map Prod.fst) := by
  rw [scan, startScan, htext, scanLoop_body hbody _ _ _ _ hlt, scanLoop_thirdDigit ⟨rfl, rfl⟩ ha hb hc]
  simp

/-- Settles O31: with fewer groups than slots, `scan_of_thirdDigit` is a failed parse. -/
theorem thirdDigitEndsTheParse : Obligations.ThirdDigitEndsTheParse := by
  intro s body a b c rest hbody ha hb hc htext
  exact ⟨fun hlt => exec_ptime_failed (by simpa using hlt) (scan_of_thirdDigit hbody ha hb hc htext hlt),
    fun hlt => exec_pdt_failed (by simpa using hlt) (scan_of_thirdDigit hbody ha hb hc htext hlt)⟩

/-- R107: the scan stops at the NUL, the group in progress committed if it has a digit. -/
theorem scan_of_nul {s : State} {map : List Slot} {body : List (List Byte × Byte)} {g rest : List Byte}
    (hbody : IsBody body) (hg : IsGroup g) (htext : s.ibuf.toList = joinGroups body ++ g ++ 0x00 :: rest)
    (hlt : (groupsAtEnd body g).length < map.length) :
    (scan s map).cnt = (groupsAtEnd body g).length ∧
    (scan s map).record = commitAll s.record map (groupsAtEnd body g) := by
  have hbodyLt : body.length < map.length := by
    refine lt_of_le_of_lt ?_ hlt
    simp [groupsAtEnd]
  obtain ⟨slot, left, hslot⟩ := List.exists_cons_of_length_pos (l := map.drop body.length) (by
    rw [List.length_drop]
    omega)
  have hscan : scan s map =
      scanNul ⟨commitAll s.record map (body.map Prod.fst), slot :: left, groupByte g, g.length, body.length⟩ := by
    rw [scan, startScan, htext, List.append_assoc, scanLoop_body hbody _ _ _ _ hbodyLt, hslot, Nat.zero_add,
      scanLoop_group ⟨rfl, rfl⟩ hg, scanLoop_nul]
  rw [hscan]
  cases g with
  | nil => simp [scanNul, groupsAtEnd]
  | cons c g =>
    have hcommit := commitAll_append s.record (c :: g) (map := map) (groups := body.map Prod.fst) (by
      rw [List.length_map, hslot])
    simp [scanNul, scanCommit, groupsAtEnd, hcommit]

/-- Settles O32: with fewer groups than slots, `scan_of_nul` is a failed parse. -/
theorem shortInputEndsTheParse : Obligations.ShortInputEndsTheParse := by
  intro s body g rest hbody hg htext
  exact ⟨fun hlt => exec_ptime_failed hlt (scan_of_nul hbody hg htext hlt),
    fun hlt => exec_pdt_failed hlt (scan_of_nul hbody hg htext hlt)⟩

end Sys2Proof.Machine
end

section
/-! PROOFS. Parsing a time and rendering it (46_formatter R169). -/

namespace Sys2Proof.Machine

/-! ### The digits of a group -/

theorem exists_eq_digit : ∀ {c : Byte}, isDigit c = true → ∃ d : Fin 10, c = BitVec.ofNat 8 (0x30 + d.val) := by
  decide +kernel

/-- A property of two characters that are digits, by the hundred pairs. -/
theorem forall_digits (P : Byte → Byte → Prop)
    (h : ∀ x y : Fin 10, P (BitVec.ofNat 8 (0x30 + x.val)) (BitVec.ofNat 8 (0x30 + y.val))) {a b : Byte}
    (ha : isDigit a = true) (hb : isDigit b = true) : P a b := by
  obtain ⟨x, rfl⟩ := exists_eq_digit ha
  obtain ⟨y, rfl⟩ := exists_eq_digit hb
  exact h x y

/-- R102, R10: two digits are the two characters of the byte they commit. -/
theorem asc_groupByte {a b : Byte} (ha : isDigit a = true) (hb : isDigit b = true) :
    ascHi (groupByte [a, b]) = a ∧ ascLo (groupByte [a, b]) = b :=
  forall_digits (fun a b => ascHi (groupByte [a, b]) = a ∧ ascLo (groupByte [a, b]) = b) (by decide +kernel) ha hb

/-- R102: one digit commits what it would commit after a zero. -/
theorem groupByte_pad : ∀ d : Byte, groupByte [d] = groupByte [0x30, d] := by decide +kernel

/-- R22: an hour whose tens digit is at most 3 reaches neither the mode flag nor bit 7, and its hour bits are the byte. -/
theorem groupByte_hour_of_le {a b : Byte} (ha : isDigit a = true) (hle : a.toNat ≤ 0x33) (hb : isDigit b = true) :
    is12 (groupByte [a, b]) = false ∧ hourBits (groupByte [a, b]) = groupByte [a, b] :=
  forall_digits (fun a b => a.toNat ≤ 0x33 →
    is12 (groupByte [a, b]) = false ∧ hourBits (groupByte [a, b]) = groupByte [a, b]) (by decide +kernel) ha hb hle

/-! ### The time string of parsed digits -/

/-- R166 on slots that hold parsed digits, the hour in 24-hour mode. -/
theorem timeString_of_digits {r : TimeRecord} {h1 h0 m1 m0 s1 s0 : Byte} (hh1 : isDigit h1 = true)
    (hle : h1.toNat ≤ 0x33) (hh0 : isDigit h0 = true) (hm1 : isDigit m1 = true) (hm0 : isDigit m0 = true)
    (hs1 : isDigit s1 = true) (hs0 : isDigit s0 = true) (hhours : r.hours = groupByte [h1, h0])
    (hminutes : r.minutes = groupByte [m1, m0]) (hseconds : r.seconds = groupByte [s1, s0]) :
    (timeString r).toList = [h1, h0, 0x3A, m1, m0, 0x3A, s1, s0, 0x00, 0x00, 0x00, 0x00] := by
  obtain ⟨hmode, hbits⟩ := groupByte_hour_of_le hh1 hle hh0
  obtain ⟨hourHi, hourLo⟩ := asc_groupByte hh1 hh0
  obtain ⟨minHi, minLo⟩ := asc_groupByte hm1 hm0
  obtain ⟨secHi, secLo⟩ := asc_groupByte hs1 hs0
  rw [timeString_of_24 (hhours ▸ hmode), hhours, hbits, hminutes, hseconds, hourHi, hourLo, minHi, minLo, secHi, secLo]
  rfl

/-- Three groups between colons and a NUL, no marker: what PTIME stores of them. -/
theorem exec_ptime_colons {s : State} {h m d rest : List Byte} (hh : IsGroup h) (hm : IsGroup m) (hd : IsGroup d)
    (hne : d ≠ []) (htext : s.ibuf.toList = h ++ 0x3A :: (m ++ 0x3A :: (d ++ 0x00 :: rest))) :
    ∃ t, exec .ptime s = .next t ∧ t.record.hours = groupByte h ∧ t.record.minutes = groupByte m ∧
      t.record.seconds = groupByte d := by
  obtain ⟨t, ht, hhours, hminutes, hseconds, -⟩ := ptimeStoresItsThreeGroups s h m d (0x00 :: rest) 0x3A 0x3A hh hm hd
    (by decide) (by decide) (.inr ⟨hne, .inr ⟨rest, rfl⟩⟩) htext
  exact ⟨t, ht, hhours.trans BitVec.or_zero, hminutes, hseconds⟩

theorem isGroup_pair {a b : Byte} (ha : isDigit a = true) (hb : isDigit b = true) : IsGroup [a, b] :=
  ⟨le_rfl, by simp [ha, hb]⟩

theorem isGroup_singleton {a : Byte} (ha : isDigit a = true) : IsGroup [a] := ⟨one_le_two, by simp [ha]⟩

/-- Settles O50: PTIME stores the digits two to a slot, and FMTT renders them as they were. -/
theorem parsedTimeIsRenderedUnchanged : Obligations.ParsedTimeIsRenderedUnchanged := by
  intro s h1 h0 m1 m0 s1 s0 rest hh1 hle hh0 hm1 hm0 hs1 hs0 htext
  obtain ⟨t, ht, hhours, hminutes, hseconds⟩ := exec_ptime_colons (isGroup_pair hh1 hh0) (isGroup_pair hm1 hm0)
    (isGroup_pair hs1 hs0) (List.cons_ne_nil _ _) htext
  exact ⟨t, _, ht, exec_fmtt t, timeString_of_digits hh1 hle hh0 hm1 hm0 hs1 hs0 hhours hminutes hseconds⟩

/-- Settles O51: one digit is stored as the two digits with a zero before it, which FMTT renders. -/
theorem oneDigitGroupsAreRenderedPadded : Obligations.OneDigitGroupsAreRenderedPadded := by
  intro s h m d rest hh hm hd htext
  obtain ⟨t, ht, hhours, hminutes, hseconds⟩ := exec_ptime_colons (isGroup_singleton hh) (isGroup_singleton hm)
    (isGroup_singleton hd) (List.cons_ne_nil _ _) htext
  rw [groupByte_pad] at hhours hminutes hseconds
  have hzero : isDigit 0x30 = true := by decide
  exact ⟨t, _, ht, exec_fmtt t,
    timeString_of_digits hzero (by decide) hh hzero hm hzero hd hhours hminutes hseconds⟩

end Sys2Proof.Machine
end

section
/-! PROOFS. The domain of the two parses (00_scope R12, 41_parser R105, R106). -/

namespace Sys2Proof.Machine

/-- Digits commit a BCD byte. -/
theorem isBcd_groupByte {g : List Byte} (hg : IsGroup g) : isBcd (groupByte g) = true := by
  have hpair {a b : Byte} (ha : isDigit a = true) (hb : isDigit b = true) : isBcd (groupByte [a, b]) = true :=
    forall_digits (fun a b => isBcd (groupByte [a, b]) = true) (by decide +kernel) ha hb
  obtain ⟨hlen, hdigit⟩ := hg
  match g with
  | [] => decide
  | [b] => exact groupByte_pad b ▸ hpair (by decide) (hdigit b (by simp))
  | [a, b] => exact hpair (hdigit a (by simp)) (hdigit b (by simp))
  | _ :: _ :: _ :: _ => simp at hlen

/-! ### The hours byte -/

theorem markerBits_cases (tail : List Byte) :
    markerBits tail = 0x00 ∨ markerBits tail = 0x40 ∨ markerBits tail = 0x60 := by
  unfold markerBits
  split
  · exact .inl rfl
  · split_ifs
    · exact .inr (.inl rfl)
    · exact .inr (.inr rfl)
    · exact .inl rfl

theorem validHourByte_of_24 : ∀ {b : Byte}, isBcd b = true → dec b ≤ 23 → validHourByte b = true := by decide +kernel

theorem validHourByte_of_12 : ∀ {b : Byte}, isBcd b = true → 1 ≤ dec b → dec b ≤ 12 →
    validHourByte (b ||| 0x40) = true ∧ validHourByte (b ||| 0x60) = true := by decide +kernel

/-- R109: without a marker the hour is a 24-hour one, after a marker a 12-hour one. -/
theorem validHourByte_of_marker {b : Byte} {tail : List Byte} (hb : isBcd b = true)
    (hrange : if markerBits tail = 0x00 then dec b ≤ 23 else 1 ≤ dec b ∧ dec b ≤ 12) :
    validHourByte (b ||| markerBits tail) = true := by
  obtain h | h | h := markerBits_cases tail
  all_goals rw [h] at hrange ⊢
  · rw [show b ||| 0x00 = b from BitVec.or_zero]
    exact validHourByte_of_24 hb hrange
  · obtain ⟨hlow, hhigh⟩ := hrange
    exact (validHourByte_of_12 hb hlow hhigh).1
  · obtain ⟨hlow, hhigh⟩ := hrange
    exact (validHourByte_of_12 hb hlow hhigh).2

/-! ### Groups in range -/

theorem timeGroupsInDomain_iff (tail h m d : List Byte) : timeGroupsInDomain tail [h, m, d] = true ↔
    (if markerBits tail = 0x00 then dec (groupByte h) ≤ 23 else 1 ≤ dec (groupByte h) ∧ dec (groupByte h) ≤ 12) ∧
    dec (groupByte m) ≤ 59 ∧ dec (groupByte d) ≤ 59 := by
  unfold timeGroupsInDomain
  split_ifs <;> simp [and_assoc]

theorem exists_of_timeGroupsInDomain {tail : List Byte} {groups : List (List Byte)}
    (h : timeGroupsInDomain tail groups = true) : ∃ g1 g2 g3, groups = [g1, g2, g3] := by
  unfold timeGroupsInDomain at h
  split at h
  · exact ⟨_, _, _, rfl⟩
  · cases h

theorem dateTimeGroupsInDomain_iff (tail month day year : List Byte) (time : List (List Byte)) :
    dateTimeGroupsInDomain tail (month :: day :: year :: time) = true ↔
    (1 ≤ dec (groupByte month) ∧ dec (groupByte month) ≤ 12) ∧ (1 ≤ dec (groupByte day) ∧ dec (groupByte day) ≤ 31) ∧
    timeGroupsInDomain tail time = true := by
  simp [dateTimeGroupsInDomain, and_assoc]

theorem exists_of_dateTimeGroupsInDomain {tail : List Byte} {groups : List (List Byte)}
    (h : dateTimeGroupsInDomain tail groups = true) : ∃ g1 g2 g3 time, groups = g1 :: g2 :: g3 :: time := by
  unfold dateTimeGroupsInDomain at h
  split at h
  · exact ⟨_, _, _, _, rfl⟩
  · cases h

/-- Groups in the domain of a time, stored with the marker, are a valid time. -/
theorem validTime_of_groups {r : TimeRecord} {tail h m d : List Byte} (hh : IsGroup h) (hm : IsGroup m) (hd : IsGroup d)
    (hdomain : timeGroupsInDomain tail [h, m, d] = true) (hhours : r.hours = groupByte h ||| markerBits tail)
    (hminutes : r.minutes = groupByte m) (hseconds : r.seconds = groupByte d) : validTime r = true := by
  obtain ⟨hhour, hmin, hsec⟩ := (timeGroupsInDomain_iff tail h m d).1 hdomain
  rw [validTime_iff, hhours, hminutes, hseconds]
  exact ⟨⟨isBcd_groupByte hd, hsec⟩, ⟨isBcd_groupByte hm, hmin⟩, validHourByte_of_marker (isBcd_groupByte hh) hhour⟩

theorem validRecord_iff (r : TimeRecord) : validRecord r = true ↔
    validTime r = true ∧ (1 ≤ r.dayOfWeek.toNat ∧ r.dayOfWeek.toNat ≤ 7) ∧
    (isBcd r.day = true ∧ 1 ≤ dec r.day ∧ dec r.day ≤ 31) ∧
    (isBcd r.month = true ∧ 1 ≤ dec r.month ∧ dec r.month ≤ 12) ∧ isBcd r.year = true := by
  simp [validRecord, and_assoc]

/-! ### The two parses -/

/-- A text that splits into sized groups is of the language, with those groups (log 9). -/
theorem accepted_of_splitText {n : Nat} {text : List Byte} (hlen : (splitText (n + 1) text).1.length = n + 1)
    (hsized : (splitText (n + 1) text).1.all groupSized = true) :
    ∃ body g, text = joinGroups body ++ g ++ (splitText (n + 1) text).2 ∧ IsBody body ∧ IsGroup g ∧
      Terminated g (splitText (n + 1) text).2 ∧ body.length = n ∧ body.map Prod.fst ++ [g] = (splitText (n + 1) text).1 ∧
      ∀ g' ∈ (splitText (n + 1) text).1, IsGroup g' := by
  obtain ⟨body, g, htext, hgroups, hbody, hg, -, htail⟩ := splitText_spec n.succ_ne_zero hlen hsized
  rw [hgroups] at hlen
  refine ⟨body, g, htext, hbody, hg, htail, by simpa using hlen, hgroups.symm, ?_⟩
  rw [hgroups, List.forall_mem_append, List.forall_mem_map]
  exact ⟨fun p hp => (hbody p hp).1, by simpa using hg⟩

theorem exec_ptime_inDomain {s : State} (h : inDomain .ptime s = true) :
    ∃ t, exec .ptime s = .next t ∧ t.ok = true ∧ validTime t.record = true := by
  obtain ⟨hsized, hdomain⟩ := (Bool.and_eq_true _ _).mp h
  obtain ⟨g1, g2, g3, heq⟩ := exists_of_timeGroupsInDomain hdomain
  obtain ⟨body, g, htext, hbody, hg, htail, hlen, hgroups, hall⟩ := accepted_of_splitText (by rw [heq]; rfl) hsized
  obtain ⟨t, ht, hrecord, -, hok⟩ := exec_ptime_of_accepted hbody hg htail hlen htext
  rw [heq] at hdomain hall
  rw [hgroups, heq] at hrecord
  obtain ⟨h1, h2, h3⟩ : IsGroup g1 ∧ IsGroup g2 ∧ IsGroup g3 := by simpa using hall
  refine ⟨t, ht, hok, ?_⟩
  rw [hrecord]
  exact validTime_of_groups h1 h2 h3 hdomain rfl rfl rfl

theorem exec_pdt_inDomain {s : State} (h : inDomain .pdt s = true) :
    ∃ t, exec .pdt s = .next t ∧ t.ok = true ∧ validRecord t.record = true := by
  obtain ⟨hsized, hdomain⟩ := (Bool.and_eq_true _ _).mp h
  obtain ⟨g1, g2, g3, time, heq⟩ := exists_of_dateTimeGroupsInDomain hdomain
  rw [heq] at hdomain
  obtain ⟨hmonth, hday, htime⟩ := (dateTimeGroupsInDomain_iff _ _ _ _ _).1 hdomain
  obtain ⟨g4, g5, g6, rfl⟩ := exists_of_timeGroupsInDomain htime
  obtain ⟨body, g, htext, hbody, hg, htail, hlen, hgroups, hall⟩ := accepted_of_splitText (by rw [heq]; rfl) hsized
  obtain ⟨t, ht, hrecord, -, hok⟩ := exec_pdt_of_accepted hbody hg htail hlen htext
  rw [heq] at hall
  rw [hgroups, heq] at hrecord
  obtain ⟨h1, h2, h3, h4, h5, h6⟩ :
      IsGroup g1 ∧ IsGroup g2 ∧ IsGroup g3 ∧ IsGroup g4 ∧ IsGroup g5 ∧ IsGroup g6 := by simpa using hall
  have hdow := bcd_dowF_toNat (dec (groupByte g1)) (dec (groupByte g2)) (dec (groupByte g3))
  refine ⟨t, ht, hok, (validRecord_iff _).2 ?_⟩
  rw [hrecord]
  exact ⟨validTime_of_groups h4 h5 h6 htime rfl rfl rfl, ⟨(one_le_dowF _ _ _).trans_eq hdow.symm,
    hdow.trans_le (dowF_le _ _ _)⟩, ⟨isBcd_groupByte h2, hday⟩, ⟨isBcd_groupByte h1, hmonth⟩, isBcd_groupByte h3⟩

/-- Settles O53: a text in the domain is of the language, and its groups in range make the record valid. -/
theorem domainTextParsesToAValidRecord : Obligations.DomainTextParsesToAValidRecord := fun _ =>
  ⟨exec_ptime_inDomain, exec_pdt_inDomain⟩

end Sys2Proof.Machine
end

section
/-! PROOFS. What a command writes, and what that depends on (20_memory R66). -/

namespace Sys2Proof.Machine

/-! ### What it writes -/

/-- R66: the stores of each command, one frame lemma after another. -/
theorem exec_sameExcept {i : Instr} {s t : State} (h : exec i s = .next t) : SameExcept (writesOf i) s t := by
  cases i with
  | d2b | b2d | dow => cases h; exact sameExcept_set s .res0 _
  | b2a => cases h; exact (sameExcept_set s .res0 (ascHi s.a0)).trans (sameExcept_set _ .res1 (ascLo s.a0))
  | ptime => cases h; exact sameExcept_storeScan _ 3 (scan_timeMap_get_other s)
  | pdt => cases h; exact sameExcept_storeScan_record s _ _ 6
  | setmode w => cases h; exact sameExcept_set s (.record .hours) _
  | tosec => cases h; exact sameExcept_secs s _
  | adv => cases h; exact sameExcept_timeOfDay_status s _ _ _
  | almenc => cases h; exact (sameExcept_alm s (alarmImage s.record s.sel)).trans (sameExcept_set _ .alen _)
  | almdec c =>
    cases c with
    | false => cases h; exact sameExcept_almdec1 s _ _ _ _
    | true => cases h; exact sameExcept_almdec2 s _ _ _
  | fmtt => cases h; exact sameExcept_tbuf s _
  | fmtd => cases h; exact sameExcept_dbuf s _
  | fmtn => cases h; exact sameExcept_nbuf s _

/-- Settles O19: every command completes, within the frame of `exec_sameExcept`. -/
theorem commandsWriteOnlyTheirLocations : Obligations.CommandsWriteOnlyTheirLocations := by
  intro i s
  obtain ⟨t, ht⟩ := exists_exec_eq_next i s
  exact ⟨t, ht, exec_sameExcept ht⟩

/-! ### Two states that agree on some registers -/

/-- The two states hold the same byte in each register of the list. -/
def AgreeOn (rs : List Reg) (s t : State) : Prop := ∀ r ∈ rs, s.get r = t.get r

@[simp] theorem agreeOn_nil (s t : State) : AgreeOn [] s t := List.forall_mem_nil _

@[simp] theorem agreeOn_cons (r : Reg) (rs : List Reg) (s t : State) :
    AgreeOn (r :: rs) s t ↔ s.get r = t.get r ∧ AgreeOn rs s t := List.forall_mem_cons

@[simp] theorem agreeOn_append (rs rs' : List Reg) (s t : State) :
    AgreeOn (rs ++ rs') s t ↔ AgreeOn rs s t ∧ AgreeOn rs' s t := List.forall_mem_append

/-- The registers `f` numbers are the bytes of a buffer. -/
theorem agreeOn_buffer {n : Nat} {f : Fin n → Reg} {v w : Vector Byte n} {s t : State} (hs : ∀ k, s.get (f k) = v.get k)
    (ht : ∀ k, t.get (f k) = w.get k) : AgreeOn ((List.finRange n).map f) s t ↔ v = w := by
  constructor
  · refine fun h => vector_eq_of_get fun k => ?_
    rw [← hs, ← ht]
    exact h (f k) (List.mem_map_of_mem (List.mem_finRange k))
  · rintro rfl r hr
    obtain ⟨k, -, rfl⟩ := List.mem_map.1 hr
    rw [hs, ht]

@[simp] theorem agreeOn_ibuf (s t : State) : AgreeOn ((List.finRange 32).map .ibuf) s t ↔ s.ibuf = t.ibuf :=
  agreeOn_buffer (fun _ => rfl) fun _ => rfl

@[simp] theorem agreeOn_tbuf (s t : State) : AgreeOn ((List.finRange 12).map .tbuf) s t ↔ s.tbuf = t.tbuf :=
  agreeOn_buffer (fun _ => rfl) fun _ => rfl

@[simp] theorem agreeOn_dbuf (s t : State) : AgreeOn ((List.finRange 9).map .dbuf) s t ↔ s.dbuf = t.dbuf :=
  agreeOn_buffer (fun _ => rfl) fun _ => rfl

@[simp] theorem agreeOn_nbuf (s t : State) : AgreeOn ((List.finRange 4).map .nbuf) s t ↔ s.nbuf = t.nbuf :=
  agreeOn_buffer (fun _ => rfl) fun _ => rfl

@[simp] theorem agreeOn_timeRegs (s t : State) : AgreeOn timeRegs s t ↔
    s.record.seconds = t.record.seconds ∧ s.record.minutes = t.record.minutes ∧ s.record.hours = t.record.hours := by
  simp [timeRegs, State.get, TimeRecord.get]

theorem exists_eq_record_of_mem {r : Reg} (hr : r ∈ recordRegs) : ∃ slot, r = .record slot := by
  have hslots : recordRegs =
      [Slot.seconds, .minutes, .hours, .dayOfWeek, .day, .month, .year].map Reg.record := rfl
  rw [hslots] at hr
  obtain ⟨slot, -, rfl⟩ := List.mem_map.1 hr
  exact ⟨slot, rfl⟩

theorem agreeOn_recordRegs (s t : State) : AgreeOn recordRegs s t ↔ s.record = t.record := by
  refine ⟨fun h => TimeRecord.eq_of_get fun slot => h _ (mem_recordRegs slot), fun h r hr => ?_⟩
  obtain ⟨slot, rfl⟩ := exists_eq_record_of_mem hr
  exact congrArg (TimeRecord.get · slot) h

theorem delta_eq_of_agreeOn {s t : State} (h : AgreeOn [.delta 0, .delta 1, .delta 2, .delta 3] s t) :
    s.delta = t.delta := by
  refine word_eq_of_wordByte fun k => h (.delta k) ?_
  fin_cases k <;> simp

/-! ### The scanner on records that agree on some slots -/

/-- Two scanners at the same point of a text, their records alike in some slots. -/
structure Scan.Agree (slots : List Slot) (st st' : Scan) : Prop where
  left : st.left = st'.left
  acc : st.acc = st'.acc
  nd : st.nd = st'.nd
  cnt : st.cnt = st'.cnt
  get : ∀ slot ∈ slots, st.record.get slot = st'.record.get slot

theorem get_set_congr {r r' : TimeRecord} {slots : List Slot} (h : ∀ slot ∈ slots, r.get slot = r'.get slot)
    {a : Slot} {v v' : Byte} (hv : a ∈ slots → v = v') : ∀ slot ∈ slots, (r.set a v).get slot = (r'.set a v').get slot := by
  intro slot hslot
  by_cases ha : slot = a
  · subst ha
    rw [TimeRecord.get_set_same, TimeRecord.get_set_same, hv hslot]
  · rw [TimeRecord.get_set_other _ _ ha, TimeRecord.get_set_other _ _ ha, h slot hslot]

namespace Scan.Agree

variable {slots : List Slot} {st st' : Scan}

theorem digit (h : Agree slots st st') (c : Byte) : Agree slots (scanDigit st c) (scanDigit st' c) :=
  { h with
    acc := by rw [scanDigit, scanDigit, h.acc]
    nd := congrArg (· + 1) h.nd }

theorem commit (h : Agree slots st st') : Agree slots (scanCommit st) (scanCommit st') := by
  unfold scanCommit
  rw [← h.left]
  split
  · exact h
  · exact ⟨rfl, rfl, rfl, congrArg (· + 1) h.cnt, get_set_congr h.get fun _ => h.acc⟩

theorem marker (h : Agree slots st st') (c : Byte) : Agree slots (scanMarker st c) (scanMarker st' c) := by
  unfold scanMarker
  rw [← h.left]
  split
  · refine ⟨rfl, h.acc, h.nd, h.cnt, get_set_congr (a := .hours) h.get fun hmem => ?_⟩
    have hhours : st.record.hours = st'.record.hours := h.get .hours hmem
    rw [hhours]
  · exact h

theorem nul (h : Agree slots st st') : Agree slots (scanNul st) (scanNul st') := by
  unfold scanNul
  rw [← h.nd]
  split
  · exact h.commit
  · exact h

theorem loop (h : Agree slots st st') (text : List Byte) : Agree slots (scanLoop text st) (scanLoop text st') := by
  induction text generalizing st st' with
  | nil => exact h.nul
  | cons c rest ih =>
    have hstop := h.commit.marker c
    unfold scanLoop
    rw [← h.nd]
    dsimp only
    rw [← hstop.left]
    split_ifs
    · exact h
    · exact ih (h.digit c)
    · exact h.nul
    · exact hstop
    · exact ih hstop

end Scan.Agree

/-- PTIME's scan, on states that agree on `IBUF` and the three slots of the time. -/
theorem scan_timeMap_agree {s s' : State} (hibuf : s.ibuf = s'.ibuf) (hrecord : AgreeOn timeRegs s s') :
    Scan.Agree [.seconds, .minutes, .hours] (scan s timeMap) (scan s' timeMap) := by
  have hstart : Scan.Agree [.seconds, .minutes, .hours] (startScan s.record timeMap) (startScan s'.record timeMap) :=
    ⟨rfl, rfl, rfl, rfl, fun slot hslot => hrecord _ (List.mem_map_of_mem (f := Reg.record) hslot)⟩
  rw [scan, scan, hibuf]
  exact hstart.loop _

/-! ### What it depends on -/

theorem exec_ptime_agreeOn {s s' t t' : State} (h : AgreeOn (readsOf .ptime ++ mayKeep .ptime) s s')
    (ht : exec .ptime s = .next t) (ht' : exec .ptime s' = .next t') : AgreeOn (writesOf .ptime) t t' := by
  cases ht
  cases ht'
  simp only [readsOf, mayKeep, agreeOn_append, agreeOn_ibuf, agreeOn_cons, agreeOn_nil, and_true] at h
  obtain ⟨hibuf, hrecord, hstatus⟩ := h
  have hscan := scan_timeMap_agree hibuf hrecord
  have hst : s.status = s'.status := hstatus
  rw [writesOf, agreeOn_append]
  refine ⟨(agreeOn_timeRegs _ _).2 ⟨hscan.get .seconds ?_, hscan.get .minutes ?_, hscan.get .hours ?_⟩, ?_⟩
  case refine_4 => simp [State.get, hscan.cnt, hst]
  all_goals decide

theorem exec_pdt_agreeOn {s s' t t' : State} (h : AgreeOn (readsOf .pdt ++ mayKeep .pdt) s s')
    (ht : exec .pdt s = .next t) (ht' : exec .pdt s' = .next t') : AgreeOn (writesOf .pdt) t t' := by
  cases ht
  cases ht'
  simp only [readsOf, mayKeep, agreeOn_append, agreeOn_ibuf, agreeOn_recordRegs, agreeOn_cons, agreeOn_nil,
    and_true] at h
  obtain ⟨hibuf, hrecord, hstatus⟩ := h
  have hscan : scan s dateTimeMap = scan s' dateTimeMap := by rw [scan, scan, hibuf, hrecord]
  have hst : s.status = s'.status := hstatus
  rw [writesOf, agreeOn_append, agreeOn_recordRegs]
  simp [State.get, hscan, hst]

theorem exec_adv_agreeOn {s s' t t' : State} (h : AgreeOn (readsOf .adv ++ mayKeep .adv) s s')
    (ht : exec .adv s = .next t) (ht' : exec .adv s' = .next t') : AgreeOn (writesOf .adv) t t' := by
  cases ht
  cases ht'
  simp only [readsOf, mayKeep, agreeOn_append, agreeOn_timeRegs] at h
  obtain ⟨⟨⟨hseconds, hminutes, hhours⟩, hdelta⟩, hstatus⟩ := h
  have hsum : secondsOf s.record + s.delta.toNat = secondsOf s'.record + s'.delta.toNat := by
    rw [secondsOf, secondsOf, hseconds, hminutes, hhours, delta_eq_of_agreeOn hdelta]
  have hst : s.status = s'.status := hstatus .status (List.mem_singleton_self _)
  simp [writesOf, withTimeOfDay, State.get, hsum, hhours, hst]

/-- R66: where nothing of an old value survives, each result, written out, is the same function of the operands read. -/
theorem exec_agreeOn {i : Instr} {s s' t t' : State} (h : AgreeOn (readsOf i ++ mayKeep i) s s')
    (ht : exec i s = .next t) (ht' : exec i s' = .next t') : AgreeOn (writesOf i) t t' := by
  cases i with
  | ptime => exact exec_ptime_agreeOn h ht ht'
  | pdt => exact exec_pdt_agreeOn h ht ht'
  | adv => exact exec_adv_agreeOn h ht ht'
  | d2b | b2d | b2a | dow =>
    cases ht
    cases ht'
    simp only [readsOf, mayKeep, List.append_nil, agreeOn_cons, State.get] at h
    simp [writesOf, State.get, h]
  | setmode w =>
    cases ht
    cases ht'
    have hhours : s.record.hours = s'.record.hours := h _ (List.mem_singleton_self _)
    simp [writesOf, State.get, TimeRecord.get, hhours]
  | tosec =>
    cases ht
    cases ht'
    obtain ⟨hseconds, hminutes, hhours⟩ := (agreeOn_timeRegs s s').1 h
    simp [writesOf, State.get, secondsOf, hseconds, hminutes, hhours]
  | almenc =>
    cases ht
    cases ht'
    simp only [readsOf, mayKeep, List.append_nil, agreeOn_append, agreeOn_timeRegs, agreeOn_cons, State.get,
      TimeRecord.get] at h
    simp [writesOf, almRegs, State.get, alarmImage, dayDate, h]
  | almdec c =>
    have h0 : s.alm[0] = s'.alm[0] := h (.alm 0) (by simp [readsOf])
    have h1 : s.alm[1] = s'.alm[1] := h (.alm 1) (by simp [readsOf])
    have h2 : s.alm[2] = s'.alm[2] := h (.alm 2) (by simp [readsOf])
    cases c with
    | false =>
      cases ht
      cases ht'
      simp [writesOf, State.get, h0, h1, h2]
    | true =>
      cases ht
      cases ht'
      simp [writesOf, State.get, TimeRecord.get, h0, h1]
  | fmtt =>
    cases ht
    cases ht'
    obtain ⟨hseconds, hminutes, hhours⟩ := (agreeOn_timeRegs s s').1 h
    simp [writesOf, timeString, hseconds, hminutes, hhours]
  | fmtd =>
    cases ht
    cases ht'
    simp only [readsOf, mayKeep, List.append_nil, agreeOn_cons, State.get, TimeRecord.get] at h
    simp [writesOf, dateString, h]
  | fmtn =>
    cases ht
    cases ht'
    have hday : s.record.dayOfWeek = s'.record.dayOfWeek := h _ (List.mem_singleton_self _)
    simp [writesOf, hday]

/-- Settles O20: both states complete, and `exec_agreeOn` compares what they leave. -/
theorem commandsDependOnlyOnTheirLocations : Obligations.CommandsDependOnlyOnTheirLocations := by
  intro i s s' h
  obtain ⟨t, ht⟩ := exists_exec_eq_next i s
  obtain ⟨t', ht'⟩ := exists_exec_eq_next i s'
  exact ⟨t, t', ht, ht', exec_agreeOn (fun r hr => h r (List.mem_append.1 hr)) ht ht'⟩

end Sys2Proof.Machine
end
